-- ==== Sys2Proof/Word.lean ====
section
/-! DEFINITION. The bit-vector widths of the CHIP-8 core (00_scope.md R6, R8) and its two index types. -/

namespace Sys2Proof

/-- A byte: a general register, a timer, a memory cell (R6 `V_WIDTH`, `TIMER_WIDTH`). -/
abbrev Byte := BitVec 8

/-- A 16-bit word: `PC`, `I`, a stack entry, an instruction word (R6, R80). -/
abbrev Word := BitVec 16

/-- The index of a general register, 0x0 to 0xF (R21). -/
abbrev Reg := Fin 16

/-- The index of a logical key, 0x0 to 0xF (R230). -/
abbrev Key := Fin 16

/-- VF, the general register that is also the flag (R23). -/
abbrev regVF : Reg := 15

end Sys2Proof
end

