-- ==== Sys2Proof/Syntax.lean ====
section
/-! DEFINITION. The 34 instructions, one constructor per row of spec/opcode_table.json (30_encoding.md R87, R96). Every
operand has exactly the range of its field (R81), so no term stands for an instruction that has no word. -/

namespace Sys2Proof

/-- The instructions of R97. `x` and `y` are the fields X and Y, `n`, `nn` and `nnn` the fields N, NN and NNN (R81). -/
inductive Instr where
  | cls                                    -- 00E0
  | ret                                    -- 00EE
  | jp    (nnn : BitVec 12)                -- 1NNN
  | call  (nnn : BitVec 12)                -- 2NNN
  | seVB  (x : Reg) (nn : Byte)            -- 3XNN
  | sneVB (x : Reg) (nn : Byte)            -- 4XNN
  | seVV  (x y : Reg)                      -- 5XY0
  | ldVB  (x : Reg) (nn : Byte)            -- 6XNN
  | addVB (x : Reg) (nn : Byte)            -- 7XNN
  | ldVV  (x y : Reg)                      -- 8XY0
  | orVV  (x y : Reg)                      -- 8XY1
  | andVV (x y : Reg)                      -- 8XY2
  | xorVV (x y : Reg)                      -- 8XY3
  | addVV (x y : Reg)                      -- 8XY4
  | subVV (x y : Reg)                      -- 8XY5
  | shrV  (x y : Reg)                      -- 8XY6: y is encoded and not read (R158)
  | subnVV (x y : Reg)                     -- 8XY7
  | shlV  (x y : Reg)                      -- 8XYE: y is encoded and not read (R160)
  | sneVV (x y : Reg)                      -- 9XY0
  | ldI   (nnn : BitVec 12)                -- ANNN
  | jpV0  (nnn : BitVec 12)                -- BNNN
  | rnd   (x : Reg) (nn : Byte)            -- CXNN
  | drw   (x y : Reg) (n : BitVec 4)       -- DXYN
  | skp   (x : Reg)                        -- EX9E
  | sknp  (x : Reg)                        -- EXA1
  | ldVDT (x : Reg)                        -- FX07
  | ldVK  (x : Reg)                        -- FX0A
  | ldDTV (x : Reg)                        -- FX15
  | ldSTV (x : Reg)                        -- FX18
  | addIV (x : Reg)                        -- FX1E
  | ldFV  (x : Reg)                        -- FX29
  | ldBV  (x : Reg)                        -- FX33
  | ldMIV (x : Reg)                        -- FX55
  | ldVMI (x : Reg)                        -- FX65
deriving DecidableEq, Repr

end Sys2Proof
end

