-- ==== Sys2Proof/Decode.lean ====
section
/-! DEFINITION. The instruction encoding (30_encoding.md): the fields of a word, the two-level decoder of R86 to R92, the
encoder, and the opcode table of spec/opcode_table.json as rows of mask and pattern (R96, R113). -/

namespace Sys2Proof

/-! ### Fields (R10, R80, R81) -/

/-- `n1`, the primary opcode nibble. -/
def fieldN1 (w : Word) : BitVec 4 := w.extractLsb' 12 4

/-- `X`, the register index in bits 11..8. -/
def fieldX (w : Word) : Reg := (w.extractLsb' 8 4).toFin

/-- `Y`, the register index in bits 7..4. -/
def fieldY (w : Word) : Reg := (w.extractLsb' 4 4).toFin

/-- `N`, or `n4`: bits 3..0. -/
def fieldN (w : Word) : BitVec 4 := w.extractLsb' 0 4

/-- `NN`, the trailing byte. -/
def fieldNN (w : Word) : Byte := w.extractLsb' 0 8

/-- `NNN`, bits 11..0. -/
def fieldNNN (w : Word) : BitVec 12 := w.extractLsb' 0 12

/-! ### Decoding -/

/-- Why a decode gives no instruction. -/
inductive DecodeError where
  /-- The word is one of the unmapped words of R93; a step executes it as a no-op with a diagnostic (R114). -/
  | unmapped (w : Word)
  /-- Fewer than the two bytes of an instruction (R95); no step meets this, the fetch always has two bytes. -/
  | truncated
deriving DecidableEq, Repr

/-- Group 0x0: the match is on the whole word (R88). -/
def decodeGroup0 (w : Word) : Option Instr :=
  if w = 0x00E0#16 then some .cls
  else if w = 0x00EE#16 then some .ret
  else none

/-- Group 0x8: the trailing nibble selects (R89). -/
def decodeGroup8 (w : Word) : Option Instr :=
  match (fieldN w).toNat with
  | 0x0 => some (.ldVV (fieldX w) (fieldY w))
  | 0x1 => some (.orVV (fieldX w) (fieldY w))
  | 0x2 => some (.andVV (fieldX w) (fieldY w))
  | 0x3 => some (.xorVV (fieldX w) (fieldY w))
  | 0x4 => some (.addVV (fieldX w) (fieldY w))
  | 0x5 => some (.subVV (fieldX w) (fieldY w))
  | 0x6 => some (.shrV (fieldX w) (fieldY w))
  | 0x7 => some (.subnVV (fieldX w) (fieldY w))
  | 0xE => some (.shlV (fieldX w) (fieldY w))
  | _ => none

/-- Group 0xE: the trailing byte selects (R90). -/
def decodeGroupE (w : Word) : Option Instr :=
  if fieldNN w = 0x9E#8 then some (.skp (fieldX w))
  else if fieldNN w = 0xA1#8 then some (.sknp (fieldX w))
  else none

/-- Group 0xF: the trailing byte selects (R91). -/
def decodeGroupF (w : Word) : Option Instr :=
  if fieldNN w = 0x07#8 then some (.ldVDT (fieldX w))
  else if fieldNN w = 0x0A#8 then some (.ldVK (fieldX w))
  else if fieldNN w = 0x15#8 then some (.ldDTV (fieldX w))
  else if fieldNN w = 0x18#8 then some (.ldSTV (fieldX w))
  else if fieldNN w = 0x1E#8 then some (.addIV (fieldX w))
  else if fieldNN w = 0x29#8 then some (.ldFV (fieldX w))
  else if fieldNN w = 0x33#8 then some (.ldBV (fieldX w))
  else if fieldNN w = 0x55#8 then some (.ldMIV (fieldX w))
  else if fieldNN w = 0x65#8 then some (.ldVMI (fieldX w))
  else none

/-- Groups 0x5 and 0x9: the word is the group's instruction only if `n4 = 0` (R92). -/
def onlyIfN4Zero (w : Word) (i : Instr) : Option Instr :=
  if fieldN w = 0#4 then some i else none

/-- The opcode map by primary nibble (R86, R87); `none` is an unmapped word. -/
def decodeWord? (w : Word) : Option Instr :=
  match (fieldN1 w).toNat with
  | 0x0 => decodeGroup0 w
  | 0x1 => some (.jp (fieldNNN w))
  | 0x2 => some (.call (fieldNNN w))
  | 0x3 => some (.seVB (fieldX w) (fieldNN w))
  | 0x4 => some (.sneVB (fieldX w) (fieldNN w))
  | 0x5 => onlyIfN4Zero w (.seVV (fieldX w) (fieldY w))
  | 0x6 => some (.ldVB (fieldX w) (fieldNN w))
  | 0x7 => some (.addVB (fieldX w) (fieldNN w))
  | 0x8 => decodeGroup8 w
  | 0x9 => onlyIfN4Zero w (.sneVV (fieldX w) (fieldY w))
  | 0xA => some (.ldI (fieldNNN w))
  | 0xB => some (.jpV0 (fieldNNN w))
  | 0xC => some (.rnd (fieldX w) (fieldNN w))
  | 0xD => some (.drw (fieldX w) (fieldY w) (fieldN w))
  | 0xE => decodeGroupE w
  | 0xF => decodeGroupF w
  | _ => none

/-- The decoder, total on the 65536 words (R96): an instruction, or the word refused by name. -/
def decodeWord (w : Word) : Except DecodeError Instr :=
  match decodeWord? w with
  | some i => .ok i
  | none => .error (.unmapped w)

/-- The word of two bytes, most significant byte first (R60). -/
def wordOfBytes (hi lo : Byte) : Word := hi ++ lo

/-- The high byte of a word, the one at the lower address (R60). -/
def highByte (w : Word) : Byte := w.extractLsb' 8 8

/-- The low byte of a word. -/
def lowByte (w : Word) : Byte := w.extractLsb' 0 8

/-- The decoder on any bytes: the instruction at their front and the bytes after it (R60, R95). -/
def decodeBytes : List Byte → Except DecodeError (Instr × List Byte)
  | hi :: lo :: rest =>
    match decodeWord (wordOfBytes hi lo) with
    | .ok i => .ok (i, rest)
    | .error e => .error e
  | _ => .error .truncated

/-! ### Encoding -/

/-- A register index as the 4 bits of its field (R81). -/
def regBits (x : Reg) : BitVec 4 := BitVec.ofFin x

/-- A word of the layout `X NN` under the primary nibble `p` (R80). -/
def encodeXNN (p : BitVec 4) (x : Reg) (nn : Byte) : Word := p ++ regBits x ++ nn

/-- A word of the layout `NNN` under the primary nibble `p` (R80). -/
def encodeNNN (p : BitVec 4) (nnn : BitVec 12) : Word := p ++ nnn

/-- A word of the layout `X Y N` under the primary nibble `p` (R80). -/
def encodeXYN (p : BitVec 4) (x y : Reg) (n : BitVec 4) : Word := p ++ regBits x ++ regBits y ++ n

/-- The instruction word of an instruction, from the encodings of R97. -/
def encode : Instr → Word
  | .cls => 0x00E0#16
  | .ret => 0x00EE#16
  | .jp nnn => encodeNNN 0x1#4 nnn
  | .call nnn => encodeNNN 0x2#4 nnn
  | .seVB x nn => encodeXNN 0x3#4 x nn
  | .sneVB x nn => encodeXNN 0x4#4 x nn
  | .seVV x y => encodeXYN 0x5#4 x y 0x0#4
  | .ldVB x nn => encodeXNN 0x6#4 x nn
  | .addVB x nn => encodeXNN 0x7#4 x nn
  | .ldVV x y => encodeXYN 0x8#4 x y 0x0#4
  | .orVV x y => encodeXYN 0x8#4 x y 0x1#4
  | .andVV x y => encodeXYN 0x8#4 x y 0x2#4
  | .xorVV x y => encodeXYN 0x8#4 x y 0x3#4
  | .addVV x y => encodeXYN 0x8#4 x y 0x4#4
  | .subVV x y => encodeXYN 0x8#4 x y 0x5#4
  | .shrV x y => encodeXYN 0x8#4 x y 0x6#4
  | .subnVV x y => encodeXYN 0x8#4 x y 0x7#4
  | .shlV x y => encodeXYN 0x8#4 x y 0xE#4
  | .sneVV x y => encodeXYN 0x9#4 x y 0x0#4
  | .ldI nnn => encodeNNN 0xA#4 nnn
  | .jpV0 nnn => encodeNNN 0xB#4 nnn
  | .rnd x nn => encodeXNN 0xC#4 x nn
  | .drw x y n => encodeXYN 0xD#4 x y n
  | .skp x => encodeXNN 0xE#4 x 0x9E#8
  | .sknp x => encodeXNN 0xE#4 x 0xA1#8
  | .ldVDT x => encodeXNN 0xF#4 x 0x07#8
  | .ldVK x => encodeXNN 0xF#4 x 0x0A#8
  | .ldDTV x => encodeXNN 0xF#4 x 0x15#8
  | .ldSTV x => encodeXNN 0xF#4 x 0x18#8
  | .addIV x => encodeXNN 0xF#4 x 0x1E#8
  | .ldFV x => encodeXNN 0xF#4 x 0x29#8
  | .ldBV x => encodeXNN 0xF#4 x 0x33#8
  | .ldMIV x => encodeXNN 0xF#4 x 0x55#8
  | .ldVMI x => encodeXNN 0xF#4 x 0x65#8

/-- The two bytes of an instruction as memory holds them, most significant byte first (R60). -/
def encodeBytes (i : Instr) : List Byte := [highByte (encode i), lowByte (encode i)]

/-! ### The opcode table (spec/opcode_table.json; R96, R113) -/

/-- One row of the opcode table: a word `w` is the row's when `w & mask = pattern` (R113). -/
structure OpcodeRow where
  mnemonic : String
  mask : Word
  pattern : Word
deriving DecidableEq, Repr

/-- The word is the row's (R113). -/
def rowMatches (w : Word) (r : OpcodeRow) : Bool := w &&& r.mask == r.pattern

/-- The row of spec/opcode_table.json that an instruction stands for. -/
def rowOf : Instr → OpcodeRow
  | .cls => ⟨"CLS", 0xFFFF#16, 0x00E0#16⟩
  | .ret => ⟨"RET", 0xFFFF#16, 0x00EE#16⟩
  | .jp _ => ⟨"JP", 0xF000#16, 0x1000#16⟩
  | .call _ => ⟨"CALL", 0xF000#16, 0x2000#16⟩
  | .seVB _ _ => ⟨"SE_VB", 0xF000#16, 0x3000#16⟩
  | .sneVB _ _ => ⟨"SNE_VB", 0xF000#16, 0x4000#16⟩
  | .seVV _ _ => ⟨"SE_VV", 0xF00F#16, 0x5000#16⟩
  | .ldVB _ _ => ⟨"LD_VB", 0xF000#16, 0x6000#16⟩
  | .addVB _ _ => ⟨"ADD_VB", 0xF000#16, 0x7000#16⟩
  | .ldVV _ _ => ⟨"LD_VV", 0xF00F#16, 0x8000#16⟩
  | .orVV _ _ => ⟨"OR", 0xF00F#16, 0x8001#16⟩
  | .andVV _ _ => ⟨"AND", 0xF00F#16, 0x8002#16⟩
  | .xorVV _ _ => ⟨"XOR", 0xF00F#16, 0x8003#16⟩
  | .addVV _ _ => ⟨"ADD_VV", 0xF00F#16, 0x8004#16⟩
  | .subVV _ _ => ⟨"SUB", 0xF00F#16, 0x8005#16⟩
  | .shrV _ _ => ⟨"SHR", 0xF00F#16, 0x8006#16⟩
  | .subnVV _ _ => ⟨"SUBN", 0xF00F#16, 0x8007#16⟩
  | .shlV _ _ => ⟨"SHL", 0xF00F#16, 0x800E#16⟩
  | .sneVV _ _ => ⟨"SNE_VV", 0xF00F#16, 0x9000#16⟩
  | .ldI _ => ⟨"LD_I", 0xF000#16, 0xA000#16⟩
  | .jpV0 _ => ⟨"JP_V0", 0xF000#16, 0xB000#16⟩
  | .rnd _ _ => ⟨"RND", 0xF000#16, 0xC000#16⟩
  | .drw _ _ _ => ⟨"DRW", 0xF000#16, 0xD000#16⟩
  | .skp _ => ⟨"SKP", 0xF0FF#16, 0xE09E#16⟩
  | .sknp _ => ⟨"SKNP", 0xF0FF#16, 0xE0A1#16⟩
  | .ldVDT _ => ⟨"LD_V_DT", 0xF0FF#16, 0xF007#16⟩
  | .ldVK _ => ⟨"LD_V_K", 0xF0FF#16, 0xF00A#16⟩
  | .ldDTV _ => ⟨"LD_DT_V", 0xF0FF#16, 0xF015#16⟩
  | .ldSTV _ => ⟨"LD_ST_V", 0xF0FF#16, 0xF018#16⟩
  | .addIV _ => ⟨"ADD_I_V", 0xF0FF#16, 0xF01E#16⟩
  | .ldFV _ => ⟨"LD_F_V", 0xF0FF#16, 0xF029#16⟩
  | .ldBV _ => ⟨"LD_B_V", 0xF0FF#16, 0xF033#16⟩
  | .ldMIV _ => ⟨"LD_MI_V", 0xF0FF#16, 0xF055#16⟩
  | .ldVMI _ => ⟨"LD_V_MI", 0xF0FF#16, 0xF065#16⟩

/-- One instruction of every constructor, in the table's order. -/
def sampleInstrs : List Instr :=
  [.cls, .ret, .jp 0, .call 0, .seVB 0 0, .sneVB 0 0, .seVV 0 0, .ldVB 0 0, .addVB 0 0] ++
  [.ldVV 0 0, .orVV 0 0, .andVV 0 0, .xorVV 0 0, .addVV 0 0, .subVV 0 0, .shrV 0 0, .subnVV 0 0, .shlV 0 0, .sneVV 0 0] ++
  [.ldI 0, .jpV0 0, .rnd 0 0, .drw 0 0 0, .skp 0, .sknp 0] ++
  [.ldVDT 0, .ldVK 0, .ldDTV 0, .ldSTV 0, .addIV 0, .ldFV 0, .ldBV 0, .ldMIV 0, .ldVMI 0]

/-- The 34 rows of spec/opcode_table.json, in its order. -/
def opcodeTable : List OpcodeRow := sampleInstrs.map rowOf

/-! ### The host's reading of a table row -/

/-- The word whose low `nbits` bits are those of `w` and whose other bits are 0. An instruction here is one 16-bit word, so
bit 0 of the table's numbering is bit 0 of the word. -/
def tableWord (nbits w : Nat) : Word := BitVec.ofNat 16 (w % 2 ^ nbits)

/-- The instruction that the decoder reads from a word of spec/opcode_table.json, laid out in memory's byte order (R60). -/
def decodeTableWord (nbits w : Nat) : Option Instr :=
  match decodeBytes [highByte (tableWord nbits w), lowByte (tableWord nbits w)] with
  | .ok (i, _) => some i
  | .error _ => none

end Sys2Proof
end

