-- ==== Sys2Proof/Config.lean ====
section
/-! DEFINITION. The implementation parameters of 00_scope.md R6: the values the spec fixes for this hardware, and the
two it leaves open (the instruction rate and the random bytes) as opaque constants. -/

namespace Sys2Proof.Config

/-- `MEM_TOP`: the highest address that exists (R6, R50). -/
def memTop : Nat := 0xFFF

/-- `PC_RESET` (R6, R45). -/
def pcReset : Word := 0x200#16

/-- `PROG_BASE`: the address of a program's first byte (R6, R307). -/
def progBase : Nat := 0x200

/-- `PROG_MAX`: the longest program that can be loaded (R6, R305). -/
def progMax : Nat := 0xE00

/-- `FONT_BASE` (R6, R57). -/
def fontBase : Nat := 0x050

/-- `GLYPH_BYTES` (R6, R57). -/
def glyphBytes : Nat := 5

/-- `FONT_WP`: program writes to the font area are dropped (R6, R55). DESIGN CHOICE (log 9): the parameter stands at
the value the spec gives for this hardware. -/
def fontWriteProtected : Bool := true

/-- `FONT_DATA`: the glyphs 0 to 7, top row first (R57). DESIGN CHOICE (log 9): the parameter stands at its default. -/
def fontDataLow : List Byte :=
  [0xF0#8, 0x90#8, 0x90#8, 0x90#8, 0xF0#8] ++ [0x20#8, 0x60#8, 0x20#8, 0x20#8, 0x70#8] ++
  [0xF0#8, 0x10#8, 0xF0#8, 0x80#8, 0xF0#8] ++ [0xF0#8, 0x10#8, 0xF0#8, 0x10#8, 0xF0#8] ++
  [0x90#8, 0x90#8, 0xF0#8, 0x10#8, 0x10#8] ++ [0xF0#8, 0x80#8, 0xF0#8, 0x10#8, 0xF0#8] ++
  [0xF0#8, 0x80#8, 0xF0#8, 0x90#8, 0xF0#8] ++ [0xF0#8, 0x10#8, 0x20#8, 0x40#8, 0x40#8]

/-- `FONT_DATA`: the glyphs 8 to F (R57). -/
def fontDataHigh : List Byte :=
  [0xF0#8, 0x90#8, 0xF0#8, 0x90#8, 0xF0#8] ++ [0xF0#8, 0x90#8, 0xF0#8, 0x10#8, 0xF0#8] ++
  [0xF0#8, 0x90#8, 0xF0#8, 0x90#8, 0x90#8] ++ [0xE0#8, 0x90#8, 0xE0#8, 0x90#8, 0xE0#8] ++
  [0xF0#8, 0x80#8, 0x80#8, 0x80#8, 0xF0#8] ++ [0xE0#8, 0x90#8, 0x90#8, 0x90#8, 0xE0#8] ++
  [0xF0#8, 0x80#8, 0xF0#8, 0x80#8, 0xF0#8] ++ [0xF0#8, 0x80#8, 0xF0#8, 0x80#8, 0x80#8]

/-- `FONT_DATA`: the 80 bytes of the font, in glyph order (R57, R302). -/
def fontData : List Byte := fontDataLow ++ fontDataHigh

/-- What memory holds after reset (R45, R301): the font at `fontBase`, 0 everywhere else. -/
def resetByte (a : Nat) : Byte :=
  if fontBase ≤ a then fontData.getD (a - fontBase) 0#8 else 0#8

/-- `TIMER_HZ` (R6, R317). -/
def timerHz : Nat := 60

/-- An instruction rate, so many steps in so many seconds: a positive rational (R6 `INSTR_HZ`, D25). -/
structure Rate where
  steps : ℕ+
  seconds : ℕ+
deriving DecidableEq, Repr, Inhabited

/-- The rate in steps per second, exactly. -/
def Rate.hz (r : Rate) : Rat := ((r.steps : Nat) : Rat) / ((r.seconds : Nat) : Rat)

/-- `INSTR_HZ`, the rate the machine is constructed with: OPEN in the spec (R6, D25; log 2). Nothing is known of it but
that it is positive. -/
opaque instrHz : Rate

/-- `RNG`: the byte that the `n`-th draw of a run returns, a free value (R164, D34; log 1). -/
opaque randomByte : Nat → Byte

end Sys2Proof.Config
end

