-- ==== Sys2Proof/Machine/State.lean ====
section
/-! DEFINITION. The state of the CHIP-8 core (10_state.md R20), the reasons a step can stop, and the state after reset
(R45, R301). -/

namespace Sys2Proof.Machine

/-- The bytes of memory that differ from what memory holds after reset, as (address, byte) pairs (R50, R45). -/
abbrev Memory := List Host.Cell

/-- The one canonical form of a memory: addresses strictly rising, and no entry equal to what an unlisted address
reads as. -/
abbrev Memory.wf (m : Memory) : Prop :=
  m.Pairwise (fun c d => c.1 < d.1) ∧ ∀ c ∈ m, c.2 ≠ Config.resetByte c.1

/-- `FB[y][x]`: 32 rows of 64 pixels, row 0 at the top, column 0 at the left, `true` on (R39, R200). -/
abbrev Display := Vector (Vector Bool 64) 32

/-- The key-wait mode (R41, R236). -/
inductive Mode where
  /-- Steps fetch and execute instructions. -/
  | running
  /-- Steps perform the key-wait check; `x` is the destination register. -/
  | awaitingKey (x : Reg)
deriving DecidableEq, Repr

/-- The kinds of diagnostic (R251). -/
inductive DiagKind where
  /-- The fetched word is unmapped (R252). -/
  | invalidOpcode
  /-- RET with an empty stack (R253). -/
  | stackUnderflow
deriving DecidableEq, Repr

/-- The code of a diagnostic kind (R251). -/
def DiagKind.code : DiagKind → Nat
  | .invalidOpcode => 1
  | .stackUnderflow => 2

/-- A diagnostic: its kind, `PC0` of the step, and the fetched word (R251). -/
structure Diag where
  kind : DiagKind
  pc : Word
  word : Word
deriving DecidableEq, Repr

/-- The answer of `loadProgram` (R305, R306). -/
inductive LoadResult where
  | ok
  | tooLarge
deriving DecidableEq, Repr

/-- The 2-bit code of the port `load_result` (R271). -/
def LoadResult.code : LoadResult → Nat
  | .ok => 0
  | .tooLarge => 1

/-- A call `setKey(key, down)` that the host has made (R232). -/
structure KeyEvent where
  key : Nat
  down : Bool
deriving DecidableEq, Repr

/-- What the host can do to the machine (R270, R271). Times are exact rationals, in seconds (R265). -/
inductive HostCall where
  /-- `loadProgram(bytes)` (R305). -/
  | loadProgram (bytes : List Byte)
  /-- The host starts the scheduler, whose wall clock reads `t0` (R264, R304). -/
  | start (t0 : Rat)
  /-- `setKey(key, down)` (R232). -/
  | setKey (key : Nat) (down : Bool)
  /-- The strobe `instr_tick`: one step (R271, R275). -/
  | instrTick
  /-- The strobe `timer_tick`: one timer tick (R271, R275). -/
  | timerTick
  /-- `step()`: one instruction step if it is due at `now` (R270, R265). -/
  | step (now : Rat)
  /-- `tickTimers()`: one timer tick if it is due at `now` (R270, R265). -/
  | tickTimers (now : Rat)
  /-- One pass of the scheduler at `now`, with the key events still pending at it (R265, R268). -/
  | pass (now : Rat) (keys : List KeyEvent)
  /-- The strobe `terminate` (R269, R271). -/
  | terminate
deriving DecidableEq, Repr

/-- The reasons a step stops the machine with a fault: none. No step traps, aborts or halts (R117, R250). Safe: the spec
gives every word in every state a next state (log 10). -/
inductive Fault where
deriving DecidableEq, Repr

/-- The reasons a step has no meaning. -/
inductive Refusal where
  /-- Raised by an arm of `exec` for an instruction that has no meaning in this model yet; safe. No arm raises it. -/
  | notModelled (mnemonic : String)
deriving DecidableEq, Repr

/-- The state of the machine. The fields down to `timerDone` are the items of R20; the rest are the diagnostic output
(R251), and the model's own. -/
structure State where
  /-- `V[0x0]` to `V[0xF]` (R21). -/
  v : Vector Byte 16
  /-- `I`, the address register (R33). -/
  i : Word
  /-- `PC` (R25). -/
  pc : Word
  /-- `Stack`, top at the end, unbounded (R35, R11). -/
  stack : List Word
  /-- `DT`, the delay timer (R38). -/
  dt : Byte
  /-- `ST`, the sound timer (R38). -/
  st : Byte
  /-- `Mem` (R50). -/
  mem : Memory
  /-- `FB` (R39). -/
  fb : Display
  /-- `KeyDown`, written by the host only (R40). -/
  keyDown : Vector Bool 16
  /-- `Mode` (R41). -/
  mode : Mode
  /-- `Captured` (R41). -/
  captured : Option Key
  /-- `Loaded` (R42). -/
  loaded : Bool
  /-- `t0`, the time the scheduler started; none before it starts (R43, R264; log 5). -/
  t0 : Option Rat
  /-- `instr_done` (R43). -/
  instrDone : Nat
  /-- `timer_done` (R43). -/
  timerDone : Nat
  /-- The parameter `INSTR_HZ` (R6; log 2). -/
  instrHz : Config.Rate
  /-- The diagnostics emitted so far, oldest first: an output that no step reads (R251, R47; log 6). -/
  diags : List Diag
  /-- The last answer of `loadProgram`: the port `load_result` (R271, R254; log 7). -/
  loadResult : Option LoadResult
  /-- The host's calls that have not been served, oldest first (R268, R270; log 3). -/
  calls : List HostCall
  /-- The host has ended the loop (R269; log 8). -/
  terminated : Bool
  /-- How many random bytes have been drawn (R164; log 1). -/
  rngDraws : Nat
deriving DecidableEq, Repr

/-- A display with every pixel off (R39). -/
def clearDisplay : Display := Vector.replicate 32 (Vector.replicate 64 false)

/-- The machine right after reset (R45, R300, R301). Memory lists nothing, so that it reads as `Config.resetByte`. -/
def State.reset : State where
  v := Vector.replicate 16 0#8
  i := 0#16
  pc := Config.pcReset
  stack := []
  dt := 0#8
  st := 0#8
  mem := []
  fb := clearDisplay
  keyDown := Vector.replicate 16 false
  mode := .running
  captured := none
  loaded := false
  t0 := none
  instrDone := 0
  timerDone := 0
  instrHz := Config.instrHz
  diags := []
  loadResult := none
  calls := []
  terminated := false
  rngDraws := 0

end Sys2Proof.Machine
end

