-- ==== Sys2Proof/Machine/Ops.lean ====
section
/-! DEFINITION. The named operations over memory, registers, stack, display and diagnostics that every meaning uses. This
hardware has no exception that transfers control (60_exceptions.md R250, R258): what stands in the place of taking one is
`State.emit`, which records a diagnostic and changes nothing else. -/

namespace Sys2Proof.Machine

/-! ### Memory (20_memory.md) -/

/-- `Mem[a]`: the listed byte, else what memory holds after reset (R12, R45). -/
def cellAt (m : Memory) (a : Nat) : Byte :=
  match m with
  | [] => Config.resetByte a
  | c :: t => if c.1 = a then c.2 else cellAt t a

/-- The memory without an entry at `a`. -/
def eraseCell (m : Memory) (a : Nat) : Memory := m.filter (fun c => c.1 != a)

/-- The memory with an entry at `a` put in its place by address. -/
def insertCell (m : Memory) (a : Nat) (b : Byte) : Memory :=
  match m with
  | [] => [(a, b)]
  | c :: t => if a < c.1 then (a, b) :: c :: t else c :: insertCell t a b

/-- `Mem[a] <- b`, keeping the canonical form. -/
def setCell (m : Memory) (a : Nat) (b : Byte) : Memory :=
  if b = Config.resetByte a then eraseCell m a else insertCell (eraseCell m a) a b

/-- The address is in the font area, 0x050 to 0x09F (R56). -/
def inFont (a : Nat) : Bool :=
  decide (Config.fontBase ≤ a ∧ a < Config.fontBase + Config.fontData.length)

/-- A write to the address is not dropped: it exists and is not write protected (R55). -/
def writable (a : Nat) : Bool :=
  decide (a ≤ Config.memTop) && !(Config.fontWriteProtected && inFont a)

/-- `MemRead(addr, 1)`: an address above 0xFFF reads `Mem[0xFFF]` (R54). -/
def State.memRead (s : State) (addr : Nat) : Byte :=
  if addr ≤ Config.memTop then cellAt s.mem addr else cellAt s.mem Config.memTop

/-- `MemWrite(addr, 1, b)`: a write above 0xFFF or to the font area is dropped (R55). -/
def State.memWrite (s : State) (addr : Nat) (b : Byte) : State :=
  if writable addr then { s with mem := setCell s.mem addr b } else s

/-! ### Registers and program counter (10_state.md) -/

/-- `V[x]` (R11, R21). -/
def State.getV (s : State) (x : Reg) : Byte := s.v[x]

/-- `V[x] <- b` (R11, R21). -/
def State.setV (s : State) (x : Reg) (b : Byte) : State := { s with v := s.v.set x b }

/-- The advance before the operation body: `PC <- (PC + 2) mod 65536` (R112, R28). -/
def State.advance (s : State) : State := { s with pc := s.pc + 2#16 }

/-- `PC <- target` (R11). -/
def State.jump (s : State) (target : Word) : State := { s with pc := target }

/-- A skip: two more on `PC` when the condition holds (R138). -/
def State.skipIf (s : State) (c : Bool) : State := if c then s.advance else s

/-! ### Call stack (R35) -/

/-- `push(v)`: the stack is unbounded, a push never fails (R35, R37). -/
def State.push (s : State) (v : Word) : State := { s with stack := s.stack ++ [v] }

/-- The stack without its top. -/
def State.dropTop (s : State) : State := { s with stack := s.stack.dropLast }

/-! ### Diagnostics (60_exceptions.md R251) -/

/-- `raise Diag.<kind>(pc, word)`: the event is appended to the diagnostic output; nothing else changes (R13, R251). -/
def State.emit (s : State) (kind : DiagKind) (pc word : Word) : State :=
  { s with diags := s.diags ++ [⟨kind, pc, word⟩] }

/-- The step of an unmapped word: `PC` advances, the diagnostic is emitted, nothing else changes (R114, R252). -/
def State.invalidOpcode (s : State) (w : Word) : State := s.advance.emit .invalidOpcode s.pc w

/-! ### Display (44_display.md) -/

/-- `FB[y][x]`; a place outside the display is off. -/
def pixelAt (fb : Display) (x y : Nat) : Bool :=
  if h : y < 32 ∧ x < 64 then fb[y][x] else false

/-- `FB[y][x] <- on`; a place outside the display is not drawn (R204). -/
def setPixel (fb : Display) (x y : Nat) (on : Bool) : Display :=
  if h : y < 32 ∧ x < 64 then fb.set y (fb[y].set x on) else fb

/-- The bit of a sprite row that lights column `c` of the sprite: bit 7 is the leftmost pixel (R202, R203). -/
def spriteBit (b : Byte) (c : Nat) : Bool := b.getLsbD (7 - c)

/-- A display being drawn on, with the collision flag so far (R202). -/
abbrev Drawing := Display × Bool

/-- Column `c` of a sprite row: columns beyond the right edge are clipped; a set bit inverts the pixel, and turning an on
pixel off is a collision (R202, R204, R205). -/
def drawPixel (x0 y : Nat) (b : Byte) (d : Drawing) (c : Nat) : Drawing :=
  if x0 + c ≤ 63 ∧ spriteBit b c = true then
    (setPixel d.1 (x0 + c) y (!pixelAt d.1 (x0 + c) y), d.2 || pixelAt d.1 (x0 + c) y)
  else d

/-- One sprite row, its 8 columns from left to right (R202). -/
def drawRow (x0 y : Nat) (b : Byte) (d : Drawing) : Drawing := (List.range 8).foldl (drawPixel x0 y b) d

/-- The `n` rows of a sprite from top to bottom; rows below the bottom edge are clipped (R202, R204). -/
def drawSprite (rowByte : Nat → Byte) (x0 y0 n : Nat) (d : Drawing) : Drawing :=
  (List.range n).foldl (fun d r => if y0 + r ≤ 31 then drawRow x0 (y0 + r) (rowByte r) d else d) d

/-! ### Fetch (40_cycle.md) -/

/-- `Fetch(a)`: two byte reads, high byte first; `a + 1` is not wrapped (R111, R60, R53). -/
def State.fetchAt (s : State) (a : Nat) : Word := wordOfBytes (s.memRead a) (s.memRead (a + 1))

/-- The word the next step fetches (R110). -/
def State.fetchWord (s : State) : Word := s.fetchAt s.pc.toNat

/-- Both bytes of an instruction at `a` have a writable cell of their own. -/
def placeable (a : Nat) : Bool := writable a && writable (a + 1)

/-- The state with the word `w` in memory where the next step fetches. Where `PC` is at no place that can hold a word (the
font, 0xFFF and above), `PC` is first set to the program's base. -/
def State.placeWord (s : State) (w : Word) : State :=
  let s := if placeable s.pc.toNat then s else s.jump Config.pcReset
  (s.memWrite s.pc.toNat (highByte w)).memWrite (s.pc.toNat + 1) (lowByte w)

end Sys2Proof.Machine
end

