-- ==== Sys2Proof/Machine/Flags.lean ====
section
/-! DEFINITION. The flag, VF (10_state.md R23, R29): what each instruction of R30 puts there, and the write order of
42_alu.md R165. -/

namespace Sys2Proof.Machine

/-- The value of a flag in a register: 1 or 0 (R30). -/
def flagByte (f : Bool) : Byte := if f then 1#8 else 0#8

/-- Carry of an addition: the unsigned sum is 256 or more (R156). -/
def carryOut (a b : Byte) : Bool := decide (a.toNat + b.toNat ≥ 256)

/-- No borrow of `minuend - subtrahend` (R157, R159). -/
def noBorrow (minuend subtrahend : Byte) : Bool := decide (minuend.toNat ≥ subtrahend.toNat)

/-- The bit that a shift right moves out (R158). -/
def shiftedOutRight (a : Byte) : Bool := a.getLsbD 0

/-- The bit that a shift left moves out (R160). -/
def shiftedOutLeft (a : Byte) : Bool := a.getLsbD 7

/-- `I` has left the 12-bit address space (R181). -/
def pastTop (i : Word) : Bool := decide (i.toNat ≥ 4096)

/-- `VF <- flag` (R30). -/
def State.setVF (s : State) (f : Bool) : State := s.setV regVF (flagByte f)

/-- The two writes of 8XY4 to 8XYE: `V[x]`, then VF last (R165). -/
def State.setWithFlag (s : State) (x : Reg) (b : Byte) (f : Bool) : State := (s.setV x b).setVF f

end Sys2Proof.Machine
end

