-- ==== Sys2Proof/Machine/Operands.lean ====
section
/-! DEFINITION. The operand forms: 30_encoding.md R82 to R85, 43_index_memory.md R186, 42_alu.md R164. -/

namespace Sys2Proof.Machine

/-- `NNN` as a target or an address: zero-extended to 16 bits (R82). -/
def addressOperand (nnn : BitVec 12) : Word := nnn.setWidth 16

/-- `NNN + V0`, 0x000 to 0x10FE, not wrapped or masked (R137). -/
def computedTarget (nnn : BitVec 12) (v0 : Byte) : Word := nnn.setWidth 16 + v0.setWidth 16

/-- `b & 0xF`: the key index of EX9E and EXA1, the digit of FX29 (R85). -/
def lowNibble (b : Byte) : Fin 16 := (b.extractLsb' 0 4).toFin

/-- `FONT_BASE + 5 * digit` (R182). -/
def glyphAddress (digit : Fin 16) : Word := BitVec.ofNat 16 (Config.fontBase + Config.glyphBytes * digit.val)

/-- `I + offset`, an unbounded natural (R186, R53). -/
def State.dataAddress (s : State) (offset : Nat) : Nat := s.i.toNat + offset

/-- The 16 registers in ascending order. -/
def allRegs : List Reg := [0, 1, 2, 3, 4, 5, 6, 7, 8, 9, 10, 11, 12, 13, 14, 15]

/-- `V0` to `V[x]`, ascending: the registers that take part in FX55 and FX65 (R85). -/
def regsUpTo (x : Reg) : List Reg := allRegs.filter (fun r => decide (r ≤ x))

/-- The hundreds digit of a byte, 0 to 2 (R183). -/
def hundredsDigit (b : Byte) : Byte := BitVec.ofNat 8 (b.toNat / 100)

/-- The tens digit of a byte (R183). -/
def tensDigit (b : Byte) : Byte := BitVec.ofNat 8 (b.toNat / 10 % 10)

/-- The ones digit of a byte (R183). -/
def onesDigit (b : Byte) : Byte := BitVec.ofNat 8 (b.toNat % 10)

/-- `isDown(k)` (R231). -/
def State.isDown (s : State) (k : Key) : Bool := s.keyDown[k]

/-- The byte `RandomByte()` returns now: a free value (R164; log 1). -/
def State.randomByte (s : State) : Byte := Config.randomByte s.rngDraws

/-- One byte has been drawn from the random source (R164; log 1). -/
def State.countDraw (s : State) : State := { s with rngDraws := s.rngDraws + 1 }

end Sys2Proof.Machine
end

