-- ==== Sys2Proof/Machine/Alu.lean ====
section
/-! DEFINITION. Register arithmetic and logic: 42_alu.md. Operands are read from the state before the step (R14, R165);
arithmetic on bytes wraps modulo 256 (R161). -/

namespace Sys2Proof.Machine

/-- 6XNN LD Vx, NN (R150). -/
def execLdVB (x : Reg) (nn : Byte) (s : State) : Host.Outcome State Fault Refusal :=
  .next (s.advance.setV x nn)

/-- 7XNN ADD Vx, NN (R151): no flag. -/
def execAddVB (x : Reg) (nn : Byte) (s : State) : Host.Outcome State Fault Refusal :=
  .next (s.advance.setV x (s.getV x + nn))

/-- 8XY0 LD Vx, Vy (R152). -/
def execLdVV (x y : Reg) (s : State) : Host.Outcome State Fault Refusal :=
  .next (s.advance.setV x (s.getV y))

/-- 8XY1 OR Vx, Vy (R153): VF is not reset. -/
def execOrVV (x y : Reg) (s : State) : Host.Outcome State Fault Refusal :=
  .next (s.advance.setV x (s.getV x ||| s.getV y))

/-- 8XY2 AND Vx, Vy (R154): VF is not reset. -/
def execAndVV (x y : Reg) (s : State) : Host.Outcome State Fault Refusal :=
  .next (s.advance.setV x (s.getV x &&& s.getV y))

/-- 8XY3 XOR Vx, Vy (R155): VF is not reset. -/
def execXorVV (x y : Reg) (s : State) : Host.Outcome State Fault Refusal :=
  .next (s.advance.setV x (s.getV x ^^^ s.getV y))

/-- 8XY4 ADD Vx, Vy (R156): VF is the carry. -/
def execAddVV (x y : Reg) (s : State) : Host.Outcome State Fault Refusal :=
  .next (s.advance.setWithFlag x (s.getV x + s.getV y) (carryOut (s.getV x) (s.getV y)))

/-- 8XY5 SUB Vx, Vy (R157): `V[x] - V[y]`, VF is 1 when there is no borrow. -/
def execSubVV (x y : Reg) (s : State) : Host.Outcome State Fault Refusal :=
  .next (s.advance.setWithFlag x (s.getV x - s.getV y) (noBorrow (s.getV x) (s.getV y)))

/-- 8XY6 SHR Vx, Vy (R158): `V[x]` is shifted in place, `V[y]` is not read. -/
def execShrV (x _y : Reg) (s : State) : Host.Outcome State Fault Refusal :=
  .next (s.advance.setWithFlag x (s.getV x >>> 1) (shiftedOutRight (s.getV x)))

/-- 8XY7 SUBN Vx, Vy (R159): `V[y] - V[x]`, VF is 1 when there is no borrow. -/
def execSubnVV (x y : Reg) (s : State) : Host.Outcome State Fault Refusal :=
  .next (s.advance.setWithFlag x (s.getV y - s.getV x) (noBorrow (s.getV y) (s.getV x)))

/-- 8XYE SHL Vx, Vy (R160): `V[x]` is shifted in place, `V[y]` is not read. -/
def execShlV (x _y : Reg) (s : State) : Host.Outcome State Fault Refusal :=
  .next (s.advance.setWithFlag x (s.getV x <<< 1) (shiftedOutLeft (s.getV x)))

/-- CXNN RND Vx, NN (R163): one random byte is drawn (R164; log 1). -/
def execRnd (x : Reg) (nn : Byte) (s : State) : Host.Outcome State Fault Refusal :=
  .next (s.advance.countDraw.setV x (s.randomByte &&& nn))

end Sys2Proof.Machine
end

