-- ==== Sys2Proof/Machine/Display.lean ====
section
/-! DEFINITION. The display instructions: 44_display.md. -/

namespace Sys2Proof.Machine

/-- The sprite of DXYN drawn on the display of `s`: the origin is `(V[x] mod 64, V[y] mod 32)` and row `r` is
`MemRead(I + r, 1)` (R202, R207). -/
def State.drawn (s : State) (x y : Reg) (n : BitVec 4) : Drawing :=
  drawSprite (fun r => s.memRead (s.dataAddress r)) ((s.getV x).toNat % 64) ((s.getV y).toNat % 32) n.toNat (s.fb, false)

/-- 00E0 CLS (R201). -/
def execCls (s : State) : Host.Outcome State Fault Refusal :=
  .next { s.advance with fb := clearDisplay }

/-- DXYN DRW Vx, Vy, N (R202): the origin is read before VF is cleared; VF is the collision flag of this draw. -/
def execDrw (x y : Reg) (n : BitVec 4) (s : State) : Host.Outcome State Fault Refusal :=
  .next (({ s.advance with fb := (s.drawn x y n).1 } : State).setVF (s.drawn x y n).2)

end Sys2Proof.Machine
end

