-- ==== Sys2Proof/Machine/Flow.lean ====
section
/-! DEFINITION. Control transfer: 41_flow.md. Every meaning starts with the advance of R112; `s.pc` is `PC0`. -/

namespace Sys2Proof.Machine

/-- 00EE RET (R130): pop into `PC`; on an empty stack `PC` stays advanced and StackUnderflow is emitted (R253). -/
def execRet (s : State) : Host.Outcome State Fault Refusal :=
  match s.stack.getLast? with
  | some target => .next (s.advance.dropTop.jump target)
  | none => .next (s.advance.emit .stackUnderflow s.pc 0x00EE#16)

/-- 1NNN JP (R131). -/
def execJp (nnn : BitVec 12) (s : State) : Host.Outcome State Fault Refusal :=
  .next (s.advance.jump (addressOperand nnn))

/-- 2NNN CALL (R132): the address after the call is pushed. -/
def execCall (nnn : BitVec 12) (s : State) : Host.Outcome State Fault Refusal :=
  .next ((s.advance.push s.advance.pc).jump (addressOperand nnn))

/-- 3XNN SE Vx, NN (R133). -/
def execSeVB (x : Reg) (nn : Byte) (s : State) : Host.Outcome State Fault Refusal :=
  .next (s.advance.skipIf (s.getV x == nn))

/-- 4XNN SNE Vx, NN (R134). -/
def execSneVB (x : Reg) (nn : Byte) (s : State) : Host.Outcome State Fault Refusal :=
  .next (s.advance.skipIf (s.getV x != nn))

/-- 5XY0 SE Vx, Vy (R135). -/
def execSeVV (x y : Reg) (s : State) : Host.Outcome State Fault Refusal :=
  .next (s.advance.skipIf (s.getV x == s.getV y))

/-- 9XY0 SNE Vx, Vy (R136). -/
def execSneVV (x y : Reg) (s : State) : Host.Outcome State Fault Refusal :=
  .next (s.advance.skipIf (s.getV x != s.getV y))

/-- BNNN JP V0, NNN (R137). -/
def execJpV0 (nnn : BitVec 12) (s : State) : Host.Outcome State Fault Refusal :=
  .next (s.advance.jump (computedTarget nnn (s.getV 0)))

end Sys2Proof.Machine
end

