-- ==== Sys2Proof/Machine/Index.lean ====
section
/-! DEFINITION. The address register and memory transfer: 43_index_memory.md. -/

namespace Sys2Proof.Machine

/-- `I <- a` (R33). -/
def State.setI (s : State) (a : Word) : State := { s with i := a }

/-- Store `V[r]` at `I + r`; an address above 0xFFF is skipped (R184). -/
def State.storeReg (s : State) (r : Reg) : State :=
  if s.dataAddress r.val ≤ Config.memTop then s.memWrite (s.dataAddress r.val) (s.getV r) else s

/-- Load `V[r]` from `I + r`; at an address above 0xFFF the register keeps its value (R185). -/
def State.loadReg (s : State) (r : Reg) : State :=
  if s.dataAddress r.val ≤ Config.memTop then s.setV r (cellAt s.mem (s.dataAddress r.val)) else s

/-- ANNN LD I, NNN (R180). -/
def execLdI (nnn : BitVec 12) (s : State) : Host.Outcome State Fault Refusal :=
  .next (s.advance.setI (addressOperand nnn))

/-- FX1E ADD I, Vx (R181): `I` wraps modulo 65536; VF, written last, tests the new `I`. -/
def execAddIV (x : Reg) (s : State) : Host.Outcome State Fault Refusal :=
  .next ((s.advance.setI (s.i + (s.getV x).setWidth 16)).setVF (pastTop (s.i + (s.getV x).setWidth 16)))

/-- FX29 LD F, Vx (R182). -/
def execLdFV (x : Reg) (s : State) : Host.Outcome State Fault Refusal :=
  .next (s.advance.setI (glyphAddress (lowNibble (s.getV x))))

/-- FX33 LD B, Vx (R183): the decimal digits of `V[x]` at `I`, `I + 1`, `I + 2`. -/
def execLdBV (x : Reg) (s : State) : Host.Outcome State Fault Refusal :=
  .next (((s.advance.memWrite (s.dataAddress 0) (hundredsDigit (s.getV x))).memWrite
    (s.dataAddress 1) (tensDigit (s.getV x))).memWrite (s.dataAddress 2) (onesDigit (s.getV x)))

/-- FX55 LD [I], Vx (R184): `V0` to `V[x]` stored from `I` up, in ascending order. -/
def execLdMIV (x : Reg) (s : State) : Host.Outcome State Fault Refusal :=
  .next ((regsUpTo x).foldl State.storeReg s.advance)

/-- FX65 LD Vx, [I] (R185): `V0` to `V[x]` loaded from `I` up, in ascending order. -/
def execLdVMI (x : Reg) (s : State) : Host.Outcome State Fault Refusal :=
  .next ((regsUpTo x).foldl State.loadReg s.advance)

end Sys2Proof.Machine
end

