-- ==== Sys2Proof/WellFormed.lean ====
section
/-! DEFINITION. The checks on what enters the machine: an instruction word (30_encoding.md R93), a key index (46_input.md
R232) and a program (70_reset_and_hazards.md R305). An `Instr` needs no check of its own: the type of each operand is
exactly the range of its field (R81). -/

namespace Sys2Proof

/-- The nibble of `w` whose lowest bit is bit `lo`, as a number (R10). -/
def nibbleAt (lo : Nat) (w : Word) : Nat := (w.toNat >>> lo) % 16

/-- The trailing byte of `w`, as a number (R10). -/
def trailingByte (w : Word) : Nat := w.toNat % 256

/-- Group 0x0: only the two whole words are mapped (R88, R93). -/
def group0Mapped (w : Word) : Bool := w == 0x00E0#16 || w == 0x00EE#16

/-- Group 0x8: the trailing nibbles that select an operation (R89, R93). -/
def group8Mapped (w : Word) : Bool := [0, 1, 2, 3, 4, 5, 6, 7, 0xE].contains (nibbleAt 0 w)

/-- Group 0xE: the trailing bytes that select an instruction (R90, R93). -/
def groupEMapped (w : Word) : Bool := [0x9E, 0xA1].contains (trailingByte w)

/-- Group 0xF: the trailing bytes that select an instruction (R91, R93). -/
def groupFMapped (w : Word) : Bool :=
  [0x07, 0x0A, 0x15, 0x18, 0x1E, 0x29, 0x33, 0x55, 0x65].contains (trailingByte w)

/-- The word is one of the 34 instructions': it is none of the unmapped words listed in R93. -/
def wordMapped (w : Word) : Bool :=
  if nibbleAt 12 w = 0x0 then group0Mapped w
  else if nibbleAt 12 w = 0x5 ∨ nibbleAt 12 w = 0x9 then nibbleAt 0 w == 0
  else if nibbleAt 12 w = 0x8 then group8Mapped w
  else if nibbleAt 12 w = 0xE then groupEMapped w
  else if nibbleAt 12 w = 0xF then groupFMapped w
  else true

/-- `setKey` takes an index 0x0 to 0xF; any other is refused at the interface (R232). -/
def keyIndexOk (k : Nat) : Bool := decide (k < 16)

/-- A program may be at most 0xE00 bytes long (R305, R306). -/
def programFits (bytes : List Byte) : Bool := decide (bytes.length ≤ Config.progMax)

end Sys2Proof
end

