-- ==== Sys2Proof/Machine/Input.lean ====
section
/-! DEFINITION. The key latch and the blocking key read: 46_input.md. -/

namespace Sys2Proof.Machine

/-- EX9E SKP Vx (R233). -/
def execSkp (x : Reg) (s : State) : Host.Outcome State Fault Refusal :=
  .next (s.advance.skipIf (s.isDown (lowNibble (s.getV x))))

/-- EXA1 SKNP Vx (R234). -/
def execSknp (x : Reg) (s : State) : Host.Outcome State Fault Refusal :=
  .next (s.advance.skipIf (!s.isDown (lowNibble (s.getV x))))

/-- FX0A LD Vx, K (R235): the wait begins and `PC` stays on this instruction. -/
def execLdVK (x : Reg) (s : State) : Host.Outcome State Fault Refusal :=
  .next (({ s.advance with mode := .awaitingKey x, captured := none } : State).jump s.pc)

/-- `KeyWaitStep(x)` (R238). -/
def State.keyWaitStep (s : State) (x : Reg) : State :=
  match s.captured with
  | some k => ({ s.setV x (BitVec.ofNat 8 k.val) with mode := .running, captured := none } : State).advance
  | none => s

/-- `KeyPressed(k)`: the first press of a wait is kept (R237). -/
def State.keyPressed (s : State) (k : Key) : State :=
  match s.mode, s.captured with
  | .awaitingKey _, none => { s with captured := some k }
  | _, _ => s

/-- `setKey(k, down)` for an index that exists (R232). -/
def State.latchKey (s : State) (k : Key) (down : Bool) : State :=
  let t : State := { s with keyDown := s.keyDown.set k down }
  if down && !s.isDown k then t.keyPressed k else t

/-- `setKey(k, down)`: an index outside 0x0 to 0xF is refused at the interface and changes nothing (R232). -/
def State.setKey (s : State) (k : Nat) (down : Bool) : State :=
  if keyIndexOk k then s.latchKey (Fin.ofNat 16 k) down else s

end Sys2Proof.Machine
end

