-- ==== Sys2Proof/Machine/Timers.lean ====
section
/-! DEFINITION. The timers: 45_timers.md. -/

namespace Sys2Proof.Machine

/-- FX07 LD Vx, DT (R220). -/
def execLdVDT (x : Reg) (s : State) : Host.Outcome State Fault Refusal :=
  .next (s.advance.setV x s.dt)

/-- FX15 LD DT, Vx (R221). -/
def execLdDTV (x : Reg) (s : State) : Host.Outcome State Fault Refusal :=
  .next { s.advance with dt := s.getV x }

/-- FX18 LD ST, Vx (R222). -/
def execLdSTV (x : Reg) (s : State) : Host.Outcome State Fault Refusal :=
  .next { s.advance with st := s.getV x }

/-- The decrement of one timer, with its floor at 0 (R223). -/
def countDown (t : Byte) : Byte := if t.toNat > 0 then t - 1#8 else t

/-- `TimerTick()` (R223). -/
def State.timerTick (s : State) : State := { s with dt := countDown s.dt, st := countDown s.st }

end Sys2Proof.Machine
end

