-- ==== Sys2Proof/Machine/Cycle.lean ====
section
/-! DEFINITION. One instruction step of the Decoder/Executor: 40_cycle.md R110 to R115. -/

namespace Sys2Proof.Machine

/-- `Execute(w, PC0)`: the instruction of the word, or the no-op of an unmapped word (R113, R114). -/
def State.executeWord (s : State) (w : Word) : Host.Outcome State Fault Refusal :=
  match decodeWord w with
  | .ok i => exec i s
  | .error _ => .next (s.invalidOpcode w)

/-- `Step()` (R110): no step while no program is loaded (R308), the key-wait check in `AwaitingKey` (R115), else fetch and
execute. -/
def State.instrStep (s : State) : Host.Outcome State Fault Refusal :=
  if s.loaded then
    match s.mode with
    | .awaitingKey x => .next (s.keyWaitStep x)
    | .running => s.executeWord s.fetchWord
  else .next s

end Sys2Proof.Machine
end

