-- ==== Sys2Proof/Machine/HostInterface.lean ====
section
/-! DEFINITION. The host interface: 60_exceptions.md R270 and R271, 70_reset_and_hazards.md R304 to R306. Every read is of
the state between passes (R208, R270). -/

namespace Sys2Proof.Machine

/-- The scheduler has started (R264, R304). -/
def State.started (s : State) : Bool := s.t0.isSome

/-- The bytes of a program from address `a` up, verbatim (R305, R307). The copy is the host's: the font area is not in its
range. -/
def copyBytes (m : Memory) (a : Nat) : List Byte → Memory
  | [] => m
  | b :: rest => copyBytes (setCell m a b) (a + 1) rest

/-- `loadProgram(bytes)` (R305): refused once the scheduler has started, with nothing changed (R304); too long a program
is answered `tooLarge` and changes nothing else (R306). -/
def State.loadProgram (s : State) (bytes : List Byte) : State :=
  if s.started then s
  else if programFits bytes then
    { s with mem := copyBytes s.mem Config.progBase bytes, loaded := true, loadResult := some .ok }
  else { s with loadResult := some .tooLarge }

/-- The host starts the scheduler at `t0`, with both counts 0: after a successful load, once (R264, R304; log 5). -/
def State.startScheduler (s : State) (t0 : Rat) : State :=
  if s.loaded && !s.started then { s with t0 := some t0, instrDone := 0, timerDone := 0 } else s

/-- `framebuffer()`: a snapshot of the display (R208). -/
def State.framebuffer (s : State) : Display := s.fb

/-- The port `fb`: the pixel `FB[y][x]` is bit `64 * y + x` (R271). -/
def State.fbBits (s : State) : List Bool := s.fb.toList.flatMap Vector.toList

/-- `delayTimer()` (R260). -/
def State.delayTimer (s : State) : Byte := s.dt

/-- `soundTimer()` (R225, R260). -/
def State.soundTimer (s : State) : Byte := s.st

/-- The port `sound_on`: the sound is on while `ST > 0` (R225, R271). -/
def State.soundOn (s : State) : Bool := decide (s.st.toNat > 0)

/-- `isAwaitingKey()` (R241). -/
def State.isAwaitingKey (s : State) : Bool :=
  match s.mode with
  | .awaitingKey _ => true
  | .running => false

end Sys2Proof.Machine
end

