-- ==== Sys2Proof/Machine/Scheduler.lean ====
section
/-! DEFINITION. The scheduler and the serving of the host's calls: 60_exceptions.md R263 to R269, R275. -/

namespace Sys2Proof.Machine

/-- Do one action and, if it answers a next state, another from there. -/
def andThen (o : Host.Outcome State Fault Refusal) (f : State → Host.Outcome State Fault Refusal) :
    Host.Outcome State Fault Refusal :=
  match o with
  | .next s => f s
  | .fault r => .fault r
  | .refused r => .refused r

/-- Action number `done + 1` of a rate of `hz` per second is due: `(now - t0) * hz >= done + 1` (R265, R43). -/
def isDue (now t0 hz : Rat) (done : Nat) : Bool := decide ((now - t0) * hz ≥ (done : Rat) + 1)

/-- One instruction step if it is due, counted (R265): the call `step()` of R270 and the second part of a pass. -/
def State.stepIfDue (s : State) (now : Rat) : Host.Outcome State Fault Refusal :=
  match s.t0 with
  | none => .next s
  | some t0 =>
    if s.loaded && isDue now t0 s.instrHz.hz s.instrDone then
      andThen s.instrStep (fun t => .next { t with instrDone := t.instrDone + 1 })
    else .next s

/-- One timer tick if it is due, counted (R265): the call `tickTimers()` of R270 and the third part of a pass. -/
def State.tickIfDue (s : State) (now : Rat) : State :=
  match s.t0 with
  | none => s
  | some t0 =>
    if isDue now t0 (Config.timerHz : Rat) s.timerDone then { s.timerTick with timerDone := s.timerDone + 1 } else s

/-- `ApplyPendingKeyEvents()`: in the order the host made them (R265, R268). -/
def State.applyKeys (s : State) (keys : List KeyEvent) : State := keys.foldl (fun t e => t.setKey e.key e.down) s

/-- `Pass(now)`: key events, then at most one step, then at most one timer tick (R265, R266, R267). Before the scheduler
has started nothing is due (R264). -/
def State.pass (s : State) (now : Rat) (keys : List KeyEvent) : Host.Outcome State Fault Refusal :=
  andThen ((s.applyKeys keys).stepIfDue now) (fun t => .next (t.tickIfDue now))

/-- The strobe `instr_tick`: one step, once the scheduler has started (R271, R275). -/
def State.instrTick (s : State) : Host.Outcome State Fault Refusal :=
  if s.started then s.instrStep else .next s

/-- The strobe `timer_tick`: one timer tick, once the scheduler has started (R271, R275, D37). -/
def State.timerStrobe (s : State) : State := if s.started then s.timerTick else s

/-- One call of the host, as one indivisible action (R64, R116, R275). -/
def State.serve (s : State) (c : HostCall) : Host.Outcome State Fault Refusal :=
  match c with
  | .loadProgram bytes => .next (s.loadProgram bytes)
  | .start t0 => .next (s.startScheduler t0)
  | .setKey k down => .next (s.setKey k down)
  | .instrTick => s.instrTick
  | .timerTick => .next s.timerStrobe
  | .step now => s.stepIfDue now
  | .tickTimers now => .next (s.tickIfDue now)
  | .pass now keys => s.pass now keys
  | .terminate => .next { s with terminated := true }

/-- The next action of the machine: the oldest call of the host that has not been served, or, where there is none, an
instruction tick (log 3, log 4). After termination nothing runs (R269). -/
def State.nextAction (s : State) : Host.Outcome State Fault Refusal :=
  if s.terminated then .next s
  else
    match s.calls with
    | c :: rest => ({ s with calls := rest } : State).serve c
    | [] => s.instrTick

/-- The state in which the next action is the instruction step that fetches the word `w` (log 11). -/
def State.readyToRun (s : State) (w : Word) : State :=
  { s.placeWord w with
    loaded := true, t0 := some (s.t0.getD 0), mode := .running, captured := none, calls := [], terminated := false }

end Sys2Proof.Machine
end

