-- ==== Sys2Proof/Machine/Step.lean ====
section
/-! DEFINITION. One step of the machine, and the state that runs a given instruction next. -/

namespace Sys2Proof.Machine

/-- One step of the machine: its next action (R275). -/
def step (s : State) : Host.Outcome State Fault Refusal := s.nextAction

/-- `s` with the instruction of a row of spec/opcode_table.json in memory where the next step fetches, and all else that
the fetch needs: a loaded program, a started scheduler, `Running`, no host call pending (log 11). -/
def State.withFetchWord (s : State) (nbits w : Nat) : State := s.readyToRun (tableWord nbits w)

end Sys2Proof.Machine
end

