-- ==== Sys2Proof/Safety.lean ====
section
/-! DEFINITION. The terms that claims about the machine are stated in: the invariant of a state, what an instruction may
change, and what a sprite lights. Each is written from the spec's own tables, not from the meanings. -/

namespace Sys2Proof.Machine

/-! ### The invariant -/

/-- What every run keeps: memory is in its canonical form and lists no byte that a program cannot write (R55, R58), a key
is captured only in `AwaitingKey` (R41, R236), the scheduler starts only after a successful load (R264), and nothing has
been counted before it starts (R264, R45). -/
abbrev State.Inv (s : State) : Prop :=
  s.mem.wf ∧ (∀ c ∈ s.mem, writable c.1 = true) ∧ (s.captured ≠ none → s.mode ≠ .running) ∧
  (s.t0 ≠ none → s.loaded = true) ∧ (s.t0 = none → s.instrDone = 0 ∧ s.timerDone = 0)

/-- The font area holds the font data (R57, R58). -/
def State.FontIntact (s : State) : Prop :=
  ∀ k, k < 80 → s.memRead (0x050 + k) = Config.fontData.getD k 0#8

/-- The next step is an instruction step: the loop runs, no call of the host is pending, the scheduler has started and a
program is loaded (R110, R264, R269, R275). -/
def State.Ticking (s : State) : Prop :=
  s.terminated = false ∧ s.calls = [] ∧ s.t0 ≠ none ∧ s.loaded = true

/-! ### What an instruction may change -/

/-- The parts of the state that instructions change, besides `PC`. -/
inductive Part where
  /-- the general registers -/
  | v
  /-- the address register -/
  | i
  /-- the call stack -/
  | stack
  /-- the delay timer -/
  | dt
  /-- the sound timer -/
  | st
  /-- memory, byte by byte -/
  | mem
  /-- the display, pixel by pixel -/
  | fb
  /-- `Mode` and `Captured` -/
  | wait
  /-- the diagnostic output -/
  | diags
  /-- the count of random bytes drawn -/
  | draws
deriving DecidableEq, Repr

/-- A part of the state is the same before and after. -/
def Part.Same (p : Part) (s t : State) : Prop :=
  match p with
  | .v => ∀ r, t.getV r = s.getV r
  | .i => t.i = s.i
  | .stack => t.stack = s.stack
  | .dt => t.dt = s.dt
  | .st => t.st = s.st
  | .mem => ∀ a, t.memRead a = s.memRead a
  | .fb => ∀ x y, pixelAt t.fb x y = pixelAt s.fb x y
  | .wait => t.mode = s.mode ∧ t.captured = s.captured
  | .diags => t.diags = s.diags
  | .draws => t.rngDraws = s.rngDraws

/-- What no instruction changes: the host's own state and the scheduler's (R40, R42, R43, R46, R7). -/
def SameHostSide (s t : State) : Prop :=
  t.keyDown = s.keyDown ∧ t.loaded = s.loaded ∧ t.t0 = s.t0 ∧ t.instrDone = s.instrDone ∧ t.timerDone = s.timerDone ∧
  t.instrHz = s.instrHz ∧ t.loadResult = s.loadResult ∧ t.calls = s.calls ∧ t.terminated = s.terminated

/-- Nothing but `PC` and the listed parts differs. -/
def OnlyChanges (ps : List Part) (s t : State) : Prop :=
  SameHostSide s t ∧ ∀ p, p ∉ ps → p.Same s t

/-- Every general register but the listed ones is the same. -/
def RegsBut (xs : List Reg) (s t : State) : Prop := ∀ r, r ∉ xs → t.getV r = s.getV r

/-- The general registers an instruction's own step writes: the table of R22. FX0A writes its register at completion only,
in a step that is no instruction's (R235, R238). -/
def regsWritten : Instr → List Reg
  | .ldVB x _ | .addVB x _ | .rnd x _ => [x]
  | .ldVV x _ | .orVV x _ | .andVV x _ | .xorVV x _ => [x]
  | .addVV x _ | .subVV x _ | .subnVV x _ | .shrV x _ | .shlV x _ => [x, regVF]
  | .drw _ _ _ | .addIV _ => [regVF]
  | .ldVDT x => [x]
  | .ldVMI x => regsUpTo x
  | .cls | .ret | .jp _ | .call _ | .ldI _ | .jpV0 _ => []
  | .seVB _ _ | .sneVB _ _ | .seVV _ _ | .sneVV _ _ | .skp _ | .sknp _ => []
  | .ldVK _ | .ldDTV _ | .ldSTV _ | .ldFV _ | .ldBV _ | .ldMIV _ => []

/-- The parts of the state an instruction may change besides `PC`: R22 for the registers, R32 for `I`, the stack and the
timers, R52 for memory, R39 for the display, R236 for the key wait, R251 for diagnostics, R164 for random bytes. -/
def partsOf : Instr → List Part
  | .cls => [.fb]
  | .ret => [.stack, .diags]
  | .call _ => [.stack]
  | .jp _ | .jpV0 _ | .seVB _ _ | .sneVB _ _ | .seVV _ _ | .sneVV _ _ | .skp _ | .sknp _ => []
  | .ldVB _ _ | .addVB _ _ | .ldVV _ _ | .orVV _ _ | .andVV _ _ | .xorVV _ _ => [.v]
  | .addVV _ _ | .subVV _ _ | .shrV _ _ | .subnVV _ _ | .shlV _ _ => [.v]
  | .rnd _ _ => [.v, .draws]
  | .drw _ _ _ => [.v, .fb]
  | .ldI _ | .ldFV _ => [.i]
  | .addIV _ => [.v, .i]
  | .ldVDT _ | .ldVMI _ => [.v]
  | .ldVK _ => [.wait]
  | .ldDTV _ => [.dt]
  | .ldSTV _ => [.st]
  | .ldBV _ | .ldMIV _ => [.mem]

/-- The instruction may leave `PC` elsewhere than at `PC0 + 2`: the rows of R26's table. -/
def redirects : Instr → Bool
  | .ret | .jp _ | .call _ | .jpV0 _ | .ldVK _ => true
  | .seVB _ _ | .sneVB _ _ | .seVV _ _ | .sneVV _ _ | .skp _ | .sknp _ => true
  | .cls | .ldVB _ _ | .addVB _ _ | .ldVV _ _ | .orVV _ _ | .andVV _ _ | .xorVV _ _ => false
  | .addVV _ _ | .subVV _ _ | .shrV _ _ | .subnVV _ _ | .shlV _ _ | .rnd _ _ | .drw _ _ _ => false
  | .ldI _ | .addIV _ | .ldFV _ | .ldBV _ | .ldMIV _ | .ldVMI _ | .ldVDT _ | .ldDTV _ | .ldSTV _ => false

/-! ### Encodings, addresses and sprites -/

/-- The words that decode to the instruction `f w` are exactly those with `w & mask = pattern` (R113). -/
def HasEncoding (mask pattern : Word) (f : Word → Instr) : Prop :=
  ∀ w, decodeWord w = .ok (f w) ↔ w &&& mask = pattern

/-- The address exists and is outside the font area: a write to it is not dropped (R55, R56). -/
def Stores (a : Nat) : Prop := a ≤ 0xFFF ∧ ¬ (0x050 ≤ a ∧ a ≤ 0x09F)

/-- The sprite that DXYN draws from `s` lights column `px`, row `py`: the place is inside the display and inside the
sprite, and its bit of its row byte is set (R202 to R204). -/
def State.SpriteLights (s : State) (x y : Reg) (n : BitVec 4) (px py : Nat) : Prop :=
  px ≤ 63 ∧ py ≤ 31 ∧ (s.getV x).toNat % 64 ≤ px ∧ px < (s.getV x).toNat % 64 + 8 ∧
  (s.getV y).toNat % 32 ≤ py ∧ py < (s.getV y).toNat % 32 + n.toNat ∧
  (s.memRead (s.i.toNat + (py - (s.getV y).toNat % 32))).getLsbD (7 - (px - (s.getV x).toNat % 64)) = true

end Sys2Proof.Machine
end

