-- ==== Sys2Proof/Certificates/Slice0/Obligations.lean ====
section
/-! DEFINITION. The statements about the machine, from the numbered rules of spec/. `s` is the state before, `t` the state
after; times and addresses are exact numbers, registers are compared as numbers where a rule computes with them. -/

open Sys2Proof Sys2Proof.Machine

/-! ### Encoding (30_encoding.md) -/

/-- R96: decoding the word of any instruction gives the instruction back, with every operand at every value. -/
def Obligations.DecodeOfEncodeIsIdentity : Prop :=
  ∀ i : Instr, decodeWord (encode i) = .ok i ∧ decodeBytes (encodeBytes i) = .ok (i, [])

/-- A word that decodes has no other spelling: encoding its instruction gives the word back. R158 and R160 encode the
field Y although it is not read, so no bit is lost. -/
def Obligations.EncodeOfDecodeIsIdentity : Prop :=
  ∀ (w : Word) (i : Instr), decodeWord w = .ok i → encode i = w

/-- R96, R113: every word decodes to the instruction of the one row of the opcode table that it matches, or it is refused
by name and matches no row. -/
def Obligations.DecoderFollowsOpcodeTable : Prop :=
  ∀ w : Word,
    (∃ i, decodeWord w = .ok i ∧ opcodeTable.filter (rowMatches w) = [rowOf i]) ∨
    (decodeWord w = .error (.unmapped w) ∧ opcodeTable.filter (rowMatches w) = [])

/-- R93: the unmapped words, group by group (the counts that R93 adds are not stated), and the well-formedness check on a
word says the same. -/
def Obligations.UnmappedWordsAreThoseListed : Prop :=
  ∀ w : Word, (wordMapped w = true ↔ ∃ i, decodeWord w = .ok i) ∧ (decodeWord w = .error (.unmapped w) ↔
    (nibbleAt 12 w = 0x0 ∧ w ≠ 0x00E0#16 ∧ w ≠ 0x00EE#16) ∨
    (nibbleAt 12 w = 0x5 ∧ nibbleAt 0 w ≠ 0) ∨
    (nibbleAt 12 w = 0x8 ∧ nibbleAt 0 w ∈ [0x8, 0x9, 0xA, 0xB, 0xC, 0xD, 0xF]) ∨
    (nibbleAt 12 w = 0x9 ∧ nibbleAt 0 w ≠ 0) ∨
    (nibbleAt 12 w = 0xE ∧ trailingByte w ≠ 0x9E ∧ trailingByte w ≠ 0xA1) ∨
    (nibbleAt 12 w = 0xF ∧ trailingByte w ∉ [0x07, 0x0A, 0x15, 0x18, 0x1E, 0x29, 0x33, 0x55, 0x65]))

/-- Words written out from the encodings of R97 and the vectors of 95_test_vectors.md decode to what they stand for: two of
the layout `none` of R81, and of each of the layouts NNN, XNN, XY, XYN and X at least one. -/
def Obligations.WrittenOutWordsDecode : Prop :=
  decodeWord 0b0000000011100000#16 = .ok .cls ∧
  decodeWord 0b0000000011101110#16 = .ok .ret ∧
  decodeWord 0b0011001101000010#16 = .ok (.seVB 3 0x42#8) ∧
  decodeWord 0b0110101011111111#16 = .ok (.ldVB 10 0xFF#8) ∧
  decodeWord 0b0001001000110100#16 = .ok (.jp 0x234#12) ∧
  decodeWord 0b0101000100100000#16 = .ok (.seVV 1 2) ∧
  decodeWord 0b1000001000110110#16 = .ok (.shrV 2 3) ∧
  decodeWord 0b1010001011110000#16 = .ok (.ldI 0x2F0#12) ∧
  decodeWord 0b1101000000010101#16 = .ok (.drw 0 1 5#4) ∧
  decodeWord 0b1110000110011110#16 = .ok (.skp 1) ∧
  decodeWord 0b1111010100000111#16 = .ok (.ldVDT 5)

/-! ### The step (40_cycle.md) -/

/-- R110, R113: where the next step is an instruction step in `Running` and the fetched word decodes to `i`, one step of the
machine is `exec i` at that state, with nothing around it. -/
def Obligations.StepRunsDecodedInstruction : Prop :=
  ∀ (s : State) (i : Instr), s.Ticking → s.mode = .running → decodeWord s.fetchWord = .ok i → step s = exec i s

/-- R111, R54: the word fetched, as a number. Above 0xFFF the byte is that of 0xFFF. -/
def Obligations.FetchReadsHighByteFirst : Prop :=
  ∀ s : State,
    s.fetchWord.toNat = (cellAt s.mem (min s.pc.toNat 0xFFF)).toNat * 256 +
      (cellAt s.mem (min (s.pc.toNat + 1) 0xFFF)).toNat

/-- R114, R252: the step of an unmapped word moves `PC` on by 2, emits the diagnostic, and changes nothing else. -/
def Obligations.UnmappedWordIsNoOpWithDiagnostic : Prop :=
  ∀ s : State, s.Ticking → s.mode = .running → decodeWord s.fetchWord = .error (.unmapped s.fetchWord) →
    ∃ t, step s = .next t ∧ t.pc = s.pc + 2#16 ∧ t.diags = s.diags ++ [⟨.invalidOpcode, s.pc, s.fetchWord⟩] ∧
      OnlyChanges [.diags] s t

/-- R117, which speaks of the steps of the core: no step aborts, whatever the word and whatever the state. That a step of the
machine answers a next state also where the host's call is refused (log 13), where no program is loaded (log 12) and after
termination (log 8) is the model's. -/
def Obligations.NoStepAborts : Prop :=
  (∀ s : State, ∃ t, step s = .next t) ∧ (∀ s : State, ∃ t, s.instrStep = .next t) ∧
  (∀ (i : Instr) (s : State), ∃ t, exec i s = .next t)

/-- R308, R110: while no program is loaded no step is performed: not by the core, not by a scheduler whose time has come,
and not by the machine when the host calls nothing. R264, R304, R275: loaded or not, no step is performed either before the
scheduler has started (what the host's calls do before the start is said of each call by itself). That such a step is a next state with nothing changed, not a refusal,
is the model's (log 12), and so is the instruction tick of a machine with no call pending (log 4). -/
def Obligations.NoStepBeforeLoad : Prop :=
  (∀ s : State, s.loaded = false →
    s.instrStep = .next s ∧ (∀ now, s.stepIfDue now = .next s) ∧ (s.calls = [] → step s = .next s)) ∧
  ∀ s : State, s.t0 = none → (∀ now, s.stepIfDue now = .next s) ∧ (s.calls = [] → step s = .next s)

/-! ### Control transfer (41_flow.md) -/

/-- R130. -/
def Obligations.RetPopsOrReportsUnderflow : Prop :=
  HasEncoding 0xFFFF#16 0x00EE#16 (fun _ => .ret) ∧
  ∀ s : State,
    (∀ rest a, s.stack = rest ++ [a] →
      ∃ t, exec .ret s = .next t ∧ t.pc = a ∧ t.stack = rest ∧ OnlyChanges [.stack] s t) ∧
    (s.stack = [] →
      ∃ t, exec .ret s = .next t ∧ t.pc = s.pc + 2#16 ∧ t.stack = [] ∧
        t.diags = s.diags ++ [⟨.stackUnderflow, s.pc, 0x00EE#16⟩] ∧ OnlyChanges [.diags] s t)

/-- R131, R132, R137: the three jumps by address. -/
def Obligations.JumpsSetPc : Prop :=
  HasEncoding 0xF000#16 0x1000#16 (fun w => .jp (fieldNNN w)) ∧
  HasEncoding 0xF000#16 0x2000#16 (fun w => .call (fieldNNN w)) ∧
  HasEncoding 0xF000#16 0xB000#16 (fun w => .jpV0 (fieldNNN w)) ∧
  ∀ (nnn : BitVec 12) (s : State),
    (∃ t, exec (.jp nnn) s = .next t ∧ t.pc.toNat = nnn.toNat ∧ OnlyChanges [] s t) ∧
    (∃ t, exec (.call nnn) s = .next t ∧ t.pc.toNat = nnn.toNat ∧
      (∃ ret : Word, t.stack = s.stack ++ [ret] ∧ ret.toNat = (s.pc.toNat + 2) % 65536) ∧ OnlyChanges [.stack] s t) ∧
    (∃ t, exec (.jpV0 nnn) s = .next t ∧ t.pc.toNat = nnn.toNat + (s.getV 0).toNat ∧ OnlyChanges [] s t)

/-- A call and the return after it (R130, R132): control comes back to the word after the call with the stack as it was. -/
def Obligations.ReturnUndoesCall : Prop :=
  ∀ (nnn : BitVec 12) (s : State),
    ∃ t u, exec (.call nnn) s = .next t ∧ exec .ret t = .next u ∧ u.pc.toNat = (s.pc.toNat + 2) % 65536 ∧
      u.stack = s.stack ∧ OnlyChanges [] s u

/-- R133, R134: `PC` moves by 4 when the condition holds, else by 2. -/
def Obligations.ImmediateSkips : Prop :=
  HasEncoding 0xF000#16 0x3000#16 (fun w => .seVB (fieldX w) (fieldNN w)) ∧
  HasEncoding 0xF000#16 0x4000#16 (fun w => .sneVB (fieldX w) (fieldNN w)) ∧
  ∀ (x : Reg) (nn : Byte) (s : State),
    (∃ t, exec (.seVB x nn) s = .next t ∧
      t.pc.toNat = (s.pc.toNat + if s.getV x = nn then 4 else 2) % 65536 ∧ OnlyChanges [] s t) ∧
    (∃ t, exec (.sneVB x nn) s = .next t ∧
      t.pc.toNat = (s.pc.toNat + if s.getV x = nn then 2 else 4) % 65536 ∧ OnlyChanges [] s t)

/-- R135, R136. A word of either group with a nonzero low nibble is unmapped. -/
def Obligations.RegisterSkips : Prop :=
  HasEncoding 0xF00F#16 0x5000#16 (fun w => .seVV (fieldX w) (fieldY w)) ∧
  HasEncoding 0xF00F#16 0x9000#16 (fun w => .sneVV (fieldX w) (fieldY w)) ∧
  (∀ w : Word, nibbleAt 12 w = 0x5 ∨ nibbleAt 12 w = 0x9 → nibbleAt 0 w ≠ 0 →
    decodeWord w = .error (.unmapped w)) ∧
  ∀ (x y : Reg) (s : State),
    (∃ t, exec (.seVV x y) s = .next t ∧
      t.pc.toNat = (s.pc.toNat + if s.getV x = s.getV y then 4 else 2) % 65536 ∧ OnlyChanges [] s t) ∧
    (∃ t, exec (.sneVV x y) s = .next t ∧
      t.pc.toNat = (s.pc.toNat + if s.getV x = s.getV y then 2 else 4) % 65536 ∧ OnlyChanges [] s t)

/-! ### Arithmetic and logic (42_alu.md) -/

/-- R150, R151: the immediate forms; the addition wraps and writes no flag (with X = F, VF is the destination). -/
def Obligations.ImmediateLoadAndAdd : Prop :=
  HasEncoding 0xF000#16 0x6000#16 (fun w => .ldVB (fieldX w) (fieldNN w)) ∧
  HasEncoding 0xF000#16 0x7000#16 (fun w => .addVB (fieldX w) (fieldNN w)) ∧
  ∀ (x : Reg) (nn : Byte) (s : State),
    (∃ t, exec (.ldVB x nn) s = .next t ∧ t.pc = s.pc + 2#16 ∧ t.getV x = nn ∧ RegsBut [x] s t ∧
      OnlyChanges [.v] s t) ∧
    (∃ t, exec (.addVB x nn) s = .next t ∧ t.pc = s.pc + 2#16 ∧
      (t.getV x).toNat = ((s.getV x).toNat + nn.toNat) % 256 ∧ RegsBut [x] s t ∧ OnlyChanges [.v] s t)

/-- R152 to R155: assign and the bitwise operations, bit by bit; VF is not reset. -/
def Obligations.AssignAndBitwise : Prop :=
  HasEncoding 0xF00F#16 0x8000#16 (fun w => .ldVV (fieldX w) (fieldY w)) ∧
  HasEncoding 0xF00F#16 0x8001#16 (fun w => .orVV (fieldX w) (fieldY w)) ∧
  HasEncoding 0xF00F#16 0x8002#16 (fun w => .andVV (fieldX w) (fieldY w)) ∧
  HasEncoding 0xF00F#16 0x8003#16 (fun w => .xorVV (fieldX w) (fieldY w)) ∧
  ∀ (x y : Reg) (s : State),
    (∃ t, exec (.ldVV x y) s = .next t ∧ t.pc = s.pc + 2#16 ∧ t.getV x = s.getV y ∧ RegsBut [x] s t ∧
      OnlyChanges [.v] s t) ∧
    (∃ t, exec (.orVV x y) s = .next t ∧ t.pc = s.pc + 2#16 ∧
      (∀ b, (t.getV x).getLsbD b = ((s.getV x).getLsbD b || (s.getV y).getLsbD b)) ∧ RegsBut [x] s t ∧
      OnlyChanges [.v] s t) ∧
    (∃ t, exec (.andVV x y) s = .next t ∧ t.pc = s.pc + 2#16 ∧
      (∀ b, (t.getV x).getLsbD b = ((s.getV x).getLsbD b && (s.getV y).getLsbD b)) ∧ RegsBut [x] s t ∧
      OnlyChanges [.v] s t) ∧
    (∃ t, exec (.xorVV x y) s = .next t ∧ t.pc = s.pc + 2#16 ∧
      (∀ b, (t.getV x).getLsbD b = ((s.getV x).getLsbD b).xor ((s.getV y).getLsbD b)) ∧ RegsBut [x] s t ∧
      OnlyChanges [.v] s t)

/-- R156: the sum modulo 256, then VF as the carry; with X = F, VF ends holding the carry. -/
def Obligations.AddSetsCarry : Prop :=
  HasEncoding 0xF00F#16 0x8004#16 (fun w => .addVV (fieldX w) (fieldY w)) ∧
  ∀ (x y : Reg) (s : State),
    ∃ t, exec (.addVV x y) s = .next t ∧ t.pc = s.pc + 2#16 ∧
      (x ≠ regVF → (t.getV x).toNat = ((s.getV x).toNat + (s.getV y).toNat) % 256) ∧
      (t.getV regVF).toNat = (if (s.getV x).toNat + (s.getV y).toNat ≥ 256 then 1 else 0) ∧
      RegsBut [x, regVF] s t ∧ OnlyChanges [.v] s t

/-- R157, R159: the two subtractions; VF is 1 exactly when there is no borrow. -/
def Obligations.SubtractsSetNoBorrow : Prop :=
  HasEncoding 0xF00F#16 0x8005#16 (fun w => .subVV (fieldX w) (fieldY w)) ∧
  HasEncoding 0xF00F#16 0x8007#16 (fun w => .subnVV (fieldX w) (fieldY w)) ∧
  ∀ (x y : Reg) (s : State),
    (∃ t, exec (.subVV x y) s = .next t ∧ t.pc = s.pc + 2#16 ∧
      (x ≠ regVF → (t.getV x).toNat = ((s.getV x).toNat + 256 - (s.getV y).toNat) % 256) ∧
      (t.getV regVF).toNat = (if (s.getV x).toNat ≥ (s.getV y).toNat then 1 else 0) ∧
      RegsBut [x, regVF] s t ∧ OnlyChanges [.v] s t) ∧
    (∃ t, exec (.subnVV x y) s = .next t ∧ t.pc = s.pc + 2#16 ∧
      (x ≠ regVF → (t.getV x).toNat = ((s.getV y).toNat + 256 - (s.getV x).toNat) % 256) ∧
      (t.getV regVF).toNat = (if (s.getV y).toNat ≥ (s.getV x).toNat then 1 else 0) ∧
      RegsBut [x, regVF] s t ∧ OnlyChanges [.v] s t)

/-- R158, R160: the shifts act on `V[x]` in place; VF is the bit shifted out of the old `V[x]`; `V[y]` has no effect. -/
def Obligations.ShiftsSetBitShiftedOut : Prop :=
  HasEncoding 0xF00F#16 0x8006#16 (fun w => .shrV (fieldX w) (fieldY w)) ∧
  HasEncoding 0xF00F#16 0x800E#16 (fun w => .shlV (fieldX w) (fieldY w)) ∧
  ∀ (x y : Reg) (s : State),
    (∃ t, exec (.shrV x y) s = .next t ∧ t.pc = s.pc + 2#16 ∧
      (x ≠ regVF → (t.getV x).toNat = (s.getV x).toNat / 2) ∧ (t.getV regVF).toNat = (s.getV x).toNat % 2 ∧
      RegsBut [x, regVF] s t ∧ OnlyChanges [.v] s t) ∧
    (∃ t, exec (.shlV x y) s = .next t ∧ t.pc = s.pc + 2#16 ∧
      (x ≠ regVF → (t.getV x).toNat = ((s.getV x).toNat * 2) % 256) ∧
      (t.getV regVF).toNat = (s.getV x).toNat / 128 ∧
      RegsBut [x, regVF] s t ∧ OnlyChanges [.v] s t)

/-- R163, with the model's form of the draw (log 1): the byte drawn is the free value of this draw, whatever it is; every
bit outside NN is 0, every bit inside it is the random byte's. -/
def Obligations.RandomByteIsMasked : Prop :=
  HasEncoding 0xF000#16 0xC000#16 (fun w => .rnd (fieldX w) (fieldNN w)) ∧
  ∀ (x : Reg) (nn : Byte) (s : State),
    ∃ t, exec (.rnd x nn) s = .next t ∧ t.pc = s.pc + 2#16 ∧
      (∀ b, (t.getV x).getLsbD b = if nn.getLsbD b then (Config.randomByte s.rngDraws).getLsbD b else false) ∧
      t.rngDraws = s.rngDraws + 1 ∧ RegsBut [x] s t ∧ OnlyChanges [.v, .draws] s t

/-- R164: each CXNN step draws exactly one byte, no other instruction draws (in the model's count of draws, log 1). -/
def Obligations.OnlyRndDraws : Prop :=
  ∀ (i : Instr) (s t : State), exec i s = .next t →
    t.rngDraws = s.rngDraws + (if ∃ x nn, i = .rnd x nn then 1 else 0)

/-! ### The address register and memory (43_index_memory.md, 20_memory.md) -/

/-- R180, R182: the two loads of `I`. -/
def Obligations.IndexLoads : Prop :=
  HasEncoding 0xF000#16 0xA000#16 (fun w => .ldI (fieldNNN w)) ∧
  HasEncoding 0xF0FF#16 0xF029#16 (fun w => .ldFV (fieldX w)) ∧
  ∀ (nnn : BitVec 12) (x : Reg) (s : State),
    (∃ t, exec (.ldI nnn) s = .next t ∧ t.pc = s.pc + 2#16 ∧ t.i.toNat = nnn.toNat ∧ OnlyChanges [.i] s t) ∧
    (∃ t, exec (.ldFV x) s = .next t ∧ t.pc = s.pc + 2#16 ∧
      t.i.toNat = 0x050 + 5 * ((s.getV x).toNat % 16) ∧ OnlyChanges [.i] s t)

/-- R181: `I` wraps modulo 65536, VF tests the new `I`; with X = F the operand is the old VF. -/
def Obligations.AddIndexSetsOverflow : Prop :=
  HasEncoding 0xF0FF#16 0xF01E#16 (fun w => .addIV (fieldX w)) ∧
  ∀ (x : Reg) (s : State),
    ∃ t, exec (.addIV x) s = .next t ∧ t.pc = s.pc + 2#16 ∧
      t.i.toNat = (s.i.toNat + (s.getV x).toNat) % 65536 ∧
      (t.getV regVF).toNat = (if t.i.toNat ≥ 4096 then 1 else 0) ∧
      RegsBut [regVF] s t ∧ OnlyChanges [.v, .i] s t

/-- R187: only ANNN, FX1E and FX29 write `I`. -/
def Obligations.OnlyThreeInstructionsWriteIndex : Prop :=
  ∀ (i : Instr) (s t : State), exec i s = .next t → t.i ≠ s.i →
    (∃ nnn, i = .ldI nnn) ∨ (∃ x, i = .addIV x) ∨ (∃ x, i = .ldFV x)

/-- R183: the three digits, each where its write is not dropped; every other byte is as before. -/
def Obligations.DecimalDigitsAreStored : Prop :=
  HasEncoding 0xF0FF#16 0xF033#16 (fun w => .ldBV (fieldX w)) ∧
  ∀ (x : Reg) (s : State),
    ∃ t, exec (.ldBV x) s = .next t ∧ t.pc = s.pc + 2#16 ∧
      (Stores s.i.toNat → (t.memRead s.i.toNat).toNat = (s.getV x).toNat / 100) ∧
      (Stores (s.i.toNat + 1) → (t.memRead (s.i.toNat + 1)).toNat = (s.getV x).toNat / 10 % 10) ∧
      (Stores (s.i.toNat + 2) → (t.memRead (s.i.toNat + 2)).toNat = (s.getV x).toNat % 10) ∧
      (∀ a, a ≤ 0xFFF → (¬ Stores a ∨ a < s.i.toNat ∨ s.i.toNat + 2 < a) → t.memRead a = s.memRead a) ∧
      OnlyChanges [.mem] s t

/-- R184: `V[r]` at `I + r` for every `r` up to X, where that write is not dropped; every other byte is as before. -/
def Obligations.RegistersAreStored : Prop :=
  HasEncoding 0xF0FF#16 0xF055#16 (fun w => .ldMIV (fieldX w)) ∧
  ∀ (x : Reg) (s : State),
    ∃ t, exec (.ldMIV x) s = .next t ∧ t.pc = s.pc + 2#16 ∧
      (∀ r : Reg, r ≤ x → Stores (s.i.toNat + r.val) → t.memRead (s.i.toNat + r.val) = s.getV r) ∧
      (∀ a, a ≤ 0xFFF → (¬ Stores a ∨ a < s.i.toNat ∨ s.i.toNat + x.val < a) → t.memRead a = s.memRead a) ∧
      OnlyChanges [.mem] s t

/-- R185: `V[r]` from `I + r` for every `r` up to X whose address exists; every other register is as before. -/
def Obligations.RegistersAreLoaded : Prop :=
  HasEncoding 0xF0FF#16 0xF065#16 (fun w => .ldVMI (fieldX w)) ∧
  ∀ (x : Reg) (s : State),
    ∃ t, exec (.ldVMI x) s = .next t ∧ t.pc = s.pc + 2#16 ∧
      (∀ r : Reg, t.getV r =
        if r ≤ x ∧ s.i.toNat + r.val ≤ 0xFFF then s.memRead (s.i.toNat + r.val) else s.getV r) ∧
      OnlyChanges [.v] s t

/-- Registers stored by FX55 and loaded again by FX65 come back, where every address stores (R184, R185). -/
def Obligations.LoadUndoesStore : Prop :=
  ∀ (x : Reg) (s : State), (∀ r : Reg, r ≤ x → Stores (s.i.toNat + r.val)) →
    ∃ t u, exec (.ldMIV x) s = .next t ∧
      exec (.ldVMI x) { t with v := Vector.replicate 16 0#8 } = .next u ∧
      ∀ r : Reg, u.getV r = if r ≤ x then s.getV r else 0#8

/-- R55 (with R54): what a write to an address stores is what a read of it gives, through the clamp; a write above 0xFFF or to
the font area changes nothing; no write changes anything but memory. -/
def Obligations.ReadAfterWrite : Prop :=
  (∀ (s : State) (a k : Nat) (b : Byte),
    (s.memWrite a b).memRead k =
      if min k 0xFFF = a ∧ ¬ (0x050 ≤ a ∧ a ≤ 0x09F) then b else s.memRead k) ∧
  (∀ (s : State) (a : Nat) (b : Byte), ¬ Stores a → s.memWrite a b = s) ∧
  ∀ (s : State) (a : Nat) (b : Byte), s.memWrite a b = { s with mem := (s.memWrite a b).mem }

/-- Two memories in the canonical form that read alike are the same list, so that equal memories are equal data (the model's
form of memory; R50 gives the bytes). -/
def Obligations.CanonicalMemoriesAreEqualData : Prop :=
  ∀ m n : Memory, m.wf → n.wf → (∀ a, cellAt m a = cellAt n a) → m = n

/-! ### Display (44_display.md) -/

/-- R201. -/
def Obligations.ClearTurnsEveryPixelOff : Prop :=
  HasEncoding 0xFFFF#16 0x00E0#16 (fun _ => .cls) ∧
  ∀ s : State, ∃ t, exec .cls s = .next t ∧ t.pc = s.pc + 2#16 ∧ (∀ px py, pixelAt t.fb px py = false) ∧
    OnlyChanges [.fb] s t

/-- R202 (with R203, R204, R206): the places the sprite lights are inverted, every other pixel is as before, and VF is 1
exactly when one of the lit places was on. The origin is read before VF is written. -/
def Obligations.DrawInvertsLitPlaces : Prop :=
  HasEncoding 0xF000#16 0xD000#16 (fun w => .drw (fieldX w) (fieldY w) (fieldN w)) ∧
  ∀ (x y : Reg) (n : BitVec 4) (s : State),
    ∃ t, exec (.drw x y n) s = .next t ∧ t.pc = s.pc + 2#16 ∧
      (∀ px py, s.SpriteLights x y n px py → pixelAt t.fb px py = !pixelAt s.fb px py) ∧
      (∀ px py, ¬ s.SpriteLights x y n px py → pixelAt t.fb px py = pixelAt s.fb px py) ∧
      (t.getV regVF = 1#8 ∧ (∃ px py, s.SpriteLights x y n px py ∧ pixelAt s.fb px py = true) ∨
        t.getV regVF = 0#8 ∧ ∀ px py, s.SpriteLights x y n px py → pixelAt s.fb px py = false) ∧
      RegsBut [regVF] s t ∧ OnlyChanges [.v, .fb] s t

/-- R205: the same sprite drawn twice at the same origin restores every pixel; the second VF is 1 exactly when a lit place
was off before the first draw. With X or Y the flag register itself the first draw moves the origin. -/
def Obligations.SecondDrawRestoresDisplay : Prop :=
  ∀ (x y : Reg) (n : BitVec 4) (s : State), x ≠ regVF → y ≠ regVF →
    ∃ t u, exec (.drw x y n) s = .next t ∧ exec (.drw x y n) t = .next u ∧
      (∀ px py, pixelAt u.fb px py = pixelAt s.fb px py) ∧
      (u.getV regVF = 1#8 ↔ ∃ px py, s.SpriteLights x y n px py ∧ pixelAt s.fb px py = false)

/-! ### Timers (45_timers.md) -/

/-- R220 to R222. -/
def Obligations.TimerTransfers : Prop :=
  HasEncoding 0xF0FF#16 0xF007#16 (fun w => .ldVDT (fieldX w)) ∧
  HasEncoding 0xF0FF#16 0xF015#16 (fun w => .ldDTV (fieldX w)) ∧
  HasEncoding 0xF0FF#16 0xF018#16 (fun w => .ldSTV (fieldX w)) ∧
  ∀ (x : Reg) (s : State),
    (∃ t, exec (.ldVDT x) s = .next t ∧ t.pc = s.pc + 2#16 ∧ t.getV x = s.dt ∧ RegsBut [x] s t ∧
      OnlyChanges [.v] s t) ∧
    (∃ t, exec (.ldDTV x) s = .next t ∧ t.pc = s.pc + 2#16 ∧ t.dt = s.getV x ∧ OnlyChanges [.dt] s t) ∧
    (∃ t, exec (.ldSTV x) s = .next t ∧ t.pc = s.pc + 2#16 ∧ t.st = s.getV x ∧ OnlyChanges [.st] s t)

/-- R223: a timer tick takes one from each timer that is not 0, and changes nothing else; after `n` ticks a timer has lost
`n`, down to 0. -/
def Obligations.TimerTickCountsDown : Prop :=
  ∀ s : State,
    s.timerTick.dt.toNat = (if s.dt.toNat > 0 then s.dt.toNat - 1 else 0) ∧
    s.timerTick.st.toNat = (if s.st.toNat > 0 then s.st.toNat - 1 else 0) ∧
    s.timerTick.pc = s.pc ∧ OnlyChanges [.dt, .st] s s.timerTick ∧
    ∀ n, (State.timerTick^[n] s).dt.toNat = s.dt.toNat - n ∧ (State.timerTick^[n] s).st.toNat = s.st.toNat - n

/-! ### Keys (46_input.md) -/

/-- R233, R234: the key is the one in the low nibble of `V[x]`. -/
def Obligations.KeySkips : Prop :=
  HasEncoding 0xF0FF#16 0xE09E#16 (fun w => .skp (fieldX w)) ∧
  HasEncoding 0xF0FF#16 0xE0A1#16 (fun w => .sknp (fieldX w)) ∧
  ∀ (x : Reg) (k : Key) (s : State), k.val = (s.getV x).toNat % 16 →
    (∃ t, exec (.skp x) s = .next t ∧
      t.pc.toNat = (s.pc.toNat + if s.isDown k then 4 else 2) % 65536 ∧ OnlyChanges [] s t) ∧
    (∃ t, exec (.sknp x) s = .next t ∧
      t.pc.toNat = (s.pc.toNat + if s.isDown k then 2 else 4) % 65536 ∧ OnlyChanges [] s t)

/-- R235: the wait begins, nothing is captured, and `PC` stays on the instruction. -/
def Obligations.KeyWaitBegins : Prop :=
  HasEncoding 0xF0FF#16 0xF00A#16 (fun w => .ldVK (fieldX w)) ∧
  ∀ (x : Reg) (s : State),
    ∃ t, exec (.ldVK x) s = .next t ∧ t.pc = s.pc ∧ t.mode = .awaitingKey x ∧ t.captured = none ∧
      OnlyChanges [.wait] s t

/-- R238: the key-wait check: with a captured key the index goes into `V[x]`, the wait ends and `PC` moves past FX0A;
without one nothing changes. -/
def Obligations.KeyWaitCheck : Prop :=
  ∀ (x : Reg) (s : State), s.Ticking → s.mode = .awaitingKey x →
    (s.captured = none → step s = .next s) ∧
    (∀ k : Key, s.captured = some k →
      ∃ t, step s = .next t ∧ (t.getV x).toNat = k.val ∧ t.mode = .running ∧ t.captured = none ∧
        t.pc = s.pc + 2#16 ∧ RegsBut [x] s t ∧ OnlyChanges [.v, .wait] s t)

/-- R242: after FX0A no number of steps moves the machine until a key goes down; the first step after that press stores the
key's index and leaves `PC` two past FX0A. -/
def Obligations.KeyWaitLiveness : Prop :=
  ∀ (x : Reg) (s t : State), s.Ticking → exec (.ldVK x) s = .next t →
    (∀ n, core.run n t = .next t) ∧
    ∀ (n : Nat) (k : Key), s.isDown k = false →
      ∃ u v, core.run n t = .next u ∧ core.run 2 { u with calls := [.setKey k.val true] } = .next v ∧
        (v.getV x).toNat = k.val ∧ v.pc = s.pc + 2#16 ∧ v.mode = .running

/-- R232, R237: `setKey` writes the flag of its key; a press in a wait that holds no key yet is captured, a release and a
second press are not; an index above 15 is refused. -/
def Obligations.SetKeyLatchesAndCaptures : Prop :=
  (∀ (s : State) (k : Nat) (down : Bool), k > 15 → s.setKey k down = s) ∧
  ∀ (s : State) (k : Key) (down : Bool),
    (∀ j : Key, (s.setKey k.val down).isDown j = if j = k then down else s.isDown j) ∧
    (down = true ∧ s.isDown k = false ∧ (∃ x, s.mode = .awaitingKey x) ∧ s.captured = none →
      (s.setKey k.val down).captured = some k) ∧
    (¬ (down = true ∧ s.isDown k = false ∧ (∃ x, s.mode = .awaitingKey x) ∧ s.captured = none) →
      (s.setKey k.val down).captured = s.captured) ∧
    s.setKey k.val down =
      { s with keyDown := (s.setKey k.val down).keyDown, captured := (s.setKey k.val down).captured }

/-! ### Scheduler and host interface (60_exceptions.md, 70_reset_and_hazards.md) -/

/-- R265, R266: a pass served by the machine applies its key events in order, then makes one step if a program is loaded
and one is due, then one timer tick if one is due, and counts each. -/
def Obligations.PassStepsThenTicks : Prop :=
  ∀ (s : State) (now z : Rat) (keys : List KeyEvent) (rest : List HostCall),
    s.terminated = false → s.calls = .pass now keys :: rest → s.t0 = some z →
    ∃ u w t, u = keys.foldl (fun r e => r.setKey e.key e.down) { s with calls := rest } ∧
      (s.loaded = true ∧ (now - z) * s.instrHz.hz ≥ (s.instrDone : Rat) + 1 →
        ∃ w', u.instrStep = .next w' ∧ w = { w' with instrDone := s.instrDone + 1 }) ∧
      (¬ (s.loaded = true ∧ (now - z) * s.instrHz.hz ≥ (s.instrDone : Rat) + 1) → w = u) ∧
      ((now - z) * 60 ≥ (s.timerDone : Rat) + 1 → t = { w.timerTick with timerDone := s.timerDone + 1 }) ∧
      (¬ (now - z) * 60 ≥ (s.timerDone : Rat) + 1 → t = w) ∧
      step s = .next t

/-- R270, R265 (as log 15 reads them): the call `step()` makes one step of the core and counts it if a program is loaded and
one is due, and `tickTimers()` makes one timer tick and counts it if one is due; neither does anything else. Before the
scheduler has started nothing is due (R264, D37): the two calls change nothing, and a pass applies its key events only
(log 16). -/
def Obligations.CallsAtTimeActIfDue : Prop :=
  ∀ (s : State) (now : Rat) (rest : List HostCall), s.terminated = false →
    (s.calls = .step now :: rest →
      (∀ z, s.t0 = some z →
        (s.loaded = true ∧ (now - z) * s.instrHz.hz ≥ (s.instrDone : Rat) + 1 →
          ∃ w, ({ s with calls := rest } : State).instrStep = .next w ∧
            step s = .next { w with instrDone := s.instrDone + 1 }) ∧
        (¬ (s.loaded = true ∧ (now - z) * s.instrHz.hz ≥ (s.instrDone : Rat) + 1) →
          step s = .next { s with calls := rest })) ∧
      (s.t0 = none → step s = .next { s with calls := rest })) ∧
    (s.calls = .tickTimers now :: rest →
      (∀ z, s.t0 = some z →
        ((now - z) * 60 ≥ (s.timerDone : Rat) + 1 →
          step s = .next { ({ s with calls := rest } : State).timerTick with timerDone := s.timerDone + 1 }) ∧
        (¬ (now - z) * 60 ≥ (s.timerDone : Rat) + 1 → step s = .next { s with calls := rest })) ∧
      (s.t0 = none → step s = .next { s with calls := rest })) ∧
    (∀ keys, s.calls = .pass now keys :: rest → s.t0 = none →
      step s = .next (keys.foldl (fun r e => r.setKey e.key e.down) { s with calls := rest }))

/-- R271, R275: once the scheduler has started, the strobe `instr_tick` is one step of the core and the strobe `timer_tick` one
timer tick; before that neither does anything (R264, D37). Neither moves a count of the scheduler (log 15). The third action of
R275, a key event, and a load are served at any time (log 16, R304). -/
def Obligations.UntimedCallsAreServed : Prop :=
  ∀ (s : State) (rest : List HostCall), s.terminated = false →
    (s.calls = .instrTick :: rest →
      (s.t0 ≠ none → step s = ({ s with calls := rest } : State).instrStep ∧
        ∀ t, step s = .next t → t.instrDone = s.instrDone ∧ t.timerDone = s.timerDone) ∧
      (s.t0 = none → step s = .next { s with calls := rest })) ∧
    (s.calls = .timerTick :: rest →
      (s.t0 ≠ none → step s = .next ({ s with calls := rest } : State).timerTick) ∧
      (s.t0 = none → step s = .next { s with calls := rest })) ∧
    (∀ k down, s.calls = .setKey k down :: rest → step s = .next (({ s with calls := rest } : State).setKey k down)) ∧
    (∀ bytes, s.calls = .loadProgram bytes :: rest →
      step s = .next (({ s with calls := rest } : State).loadProgram bytes))

/-- R267: no step of the machine, whatever the host has called, counts more than one instruction step or one timer tick,
except that starting the scheduler sets both counts to 0. -/
def Obligations.AtMostOneStepAndTick : Prop :=
  ∀ s t : State, step s = .next t →
    (t.instrDone = s.instrDone ∨ t.instrDone = s.instrDone + 1 ∨ s.t0 = none) ∧
    (t.timerDone = s.timerDone ∨ t.timerDone = s.timerDone + 1 ∨ s.t0 = none)

/-- R251, R256: an instruction step emits at most one diagnostic, at the end of the output, with `PC0` and the fetched word;
it emits `InvalidOpcode` only for an unmapped word and `StackUnderflow` only for RET on an empty stack. -/
def Obligations.AtMostOneDiagnosticPerStep : Prop :=
  ∀ s t : State, s.instrStep = .next t →
    t.diags = s.diags ∨
    (t.diags = s.diags ++ [⟨.invalidOpcode, s.pc, s.fetchWord⟩] ∧
      decodeWord s.fetchWord = .error (.unmapped s.fetchWord)) ∨
    (t.diags = s.diags ++ [⟨.stackUnderflow, s.pc, s.fetchWord⟩] ∧ s.fetchWord = 0x00EE#16 ∧ s.stack = [])

/-- R305, R306: a program that fits is copied to 0x200 and the machine is loaded; one that does not changes nothing but the
answer; after the scheduler has started a load is refused and changes nothing. The field that holds the answer, and that it
keeps the last answer after a refused load, are the model's (log 7). -/
def Obligations.LoadProgramCopiesOrRefuses : Prop :=
  ∀ (s : State) (bytes : List Byte),
    (s.t0 = none → bytes.length ≤ 0xE00 →
      (∀ a, a ≤ 0xFFF → (s.loadProgram bytes).memRead a =
        if 0x200 ≤ a ∧ a < 0x200 + bytes.length then bytes.getD (a - 0x200) 0#8 else s.memRead a) ∧
      (s.loadProgram bytes).loaded = true ∧ (s.loadProgram bytes).loadResult = some .ok ∧
      s.loadProgram bytes =
        { s with mem := (s.loadProgram bytes).mem, loaded := true, loadResult := some .ok }) ∧
    (s.t0 = none → bytes.length > 0xE00 → s.loadProgram bytes = { s with loadResult := some .tooLarge }) ∧
    (s.t0 ≠ none → s.loadProgram bytes = s)

/-- R304, R264: from reset, a host that loads a program of at least two bytes and starts the scheduler at `t0` has the machine
at 0x200 with both counts 0, where the third step runs the program's first word. That each call is one step of the machine,
and that the third is an instruction tick, are the model's (log 3, log 4). -/
def Obligations.BootRunsFirstWord : Prop :=
  ∀ (hi lo : Byte) (more : List Byte) (t0 : Rat) (i : Instr),
    more.length ≤ 0xDFE → decodeWord (wordOfBytes hi lo) = .ok i →
    ∃ s, core.run 2 { State.reset with calls := [.loadProgram (hi :: lo :: more), .start t0] } = .next s ∧
      s.pc = 0x200#16 ∧ s.mode = .running ∧ s.t0 = some t0 ∧ s.instrDone = 0 ∧ s.timerDone = 0 ∧
      s.Ticking ∧ s.Inv ∧ step s = exec i s

/-- R264, R304: the start at `z` sets `t0` to `z` and both counts to 0, and nothing else; a start before a load and a second
start change nothing (log 5, log 13). Serving the call in one step is the model's (log 3). -/
def Obligations.StartBeginsSchedulerOnce : Prop :=
  ∀ (s : State) (z : Rat) (rest : List HostCall), s.terminated = false → s.calls = .start z :: rest →
    (s.loaded = true ∧ s.t0 = none →
      step s = .next { s with calls := rest, t0 := some z, instrDone := 0, timerDone := 0 }) ∧
    (s.loaded = false ∨ s.t0 ≠ none → step s = .next { s with calls := rest })

/-- R269: after termination nothing runs. -/
def Obligations.TerminationStopsTheLoop : Prop :=
  (∀ (s : State) (rest : List HostCall), s.terminated = false → s.calls = .terminate :: rest →
    step s = .next { s with calls := rest, terminated := true }) ∧
  ∀ s : State, s.terminated = true → ∀ n, core.run n s = .next s

/-- R271: the port `fb` carries `FB[y][x]` at bit `64 * y + x`, and `sound_on` and `awaiting_key` say what R225 and R241
say. -/
def Obligations.PortsShowTheState : Prop :=
  ∀ s : State,
    s.fbBits.length = 2048 ∧
    (∀ x y, x < 64 → y < 32 → s.fbBits.getD (64 * y + x) false = pixelAt s.fb x y) ∧
    (s.soundOn = true ↔ s.st ≠ 0#8) ∧ (s.isAwaitingKey = true ↔ ∃ x, s.mode = .awaitingKey x)

/-! ### Reset and the whole machine -/

/-- R45, R57: what reset leaves, for every item to which R45 gives a value; the font bytes are those of R57's table. -/
def Obligations.ResetLeavesListedValues : Prop :=
  (∀ r, State.reset.getV r = 0#8) ∧ State.reset.i = 0#16 ∧ State.reset.pc = 0x200#16 ∧ State.reset.stack = [] ∧
  State.reset.dt = 0#8 ∧ State.reset.st = 0#8 ∧
  (List.range 40).map (fun k => (State.reset.memRead (0x050 + k)).toNat) =
    [0xF0, 0x90, 0x90, 0x90, 0xF0] ++ [0x20, 0x60, 0x20, 0x20, 0x70] ++ [0xF0, 0x10, 0xF0, 0x80, 0xF0] ++
    [0xF0, 0x10, 0xF0, 0x10, 0xF0] ++ [0x90, 0x90, 0xF0, 0x10, 0x10] ++ [0xF0, 0x80, 0xF0, 0x10, 0xF0] ++
    [0xF0, 0x80, 0xF0, 0x90, 0xF0] ++ [0xF0, 0x10, 0x20, 0x40, 0x40] ∧
  (List.range 40).map (fun k => (State.reset.memRead (0x078 + k)).toNat) =
    [0xF0, 0x90, 0xF0, 0x90, 0xF0] ++ [0xF0, 0x90, 0xF0, 0x10, 0xF0] ++ [0xF0, 0x90, 0xF0, 0x90, 0x90] ++
    [0xE0, 0x90, 0xE0, 0x90, 0xE0] ++ [0xF0, 0x80, 0x80, 0x80, 0xF0] ++ [0xE0, 0x90, 0x90, 0x90, 0xE0] ++
    [0xF0, 0x80, 0xF0, 0x80, 0xF0] ++ [0xF0, 0x80, 0xF0, 0x80, 0x80] ∧
  (∀ a, a ≤ 0xFFF → ¬ (0x050 ≤ a ∧ a ≤ 0x09F) → State.reset.memRead a = 0#8) ∧
  (∀ x y, pixelAt State.reset.fb x y = false) ∧ (∀ k, State.reset.isDown k = false) ∧
  State.reset.mode = .running ∧ State.reset.captured = none ∧ State.reset.loaded = false ∧
  State.reset.instrDone = 0 ∧ State.reset.timerDone = 0 ∧ State.reset.diags = []

/-- The invariant holds at reset. -/
def Obligations.InvariantAtReset : Prop := State.reset.Inv

/-- The invariant is kept by every step, from every state that has it. -/
def Obligations.StepKeepsInvariant : Prop :=
  ∀ s t : State, s.Inv → step s = .next t → t.Inv

/-- R58: the font data is there after reset, and no step changes it, whatever the host calls. -/
def Obligations.FontNeverMutated : Prop :=
  State.reset.FontIntact ∧ ∀ s t : State, s.FontIntact → step s = .next t → t.FontIntact

/-- R22: an instruction writes no general register but those of R22's table. -/
def Obligations.InstructionsWriteOnlyListedRegisters : Prop :=
  ∀ (i : Instr) (s t : State), exec i s = .next t → RegsBut (regsWritten i) s t

/-- Every instruction changes `PC` and the parts of the state the spec lists for it, and nothing else: the key flags, the
load flag and the scheduler's state are never an instruction's (R22, R32, R39, R40, R46, R52). -/
def Obligations.InstructionsChangeOnlyTheirParts : Prop :=
  ∀ (i : Instr) (s t : State), exec i s = .next t → OnlyChanges (partsOf i) s t

/-- R26, first row: every instruction that its table does not list leaves `PC` at `PC0 + 2`, modulo 65536. -/
def Obligations.SequentialInstructionsAdvanceByTwo : Prop :=
  ∀ (i : Instr) (s t : State), exec i s = .next t → redirects i = false → t.pc.toNat = (s.pc.toNat + 2) % 65536

/-- R7: no step changes the instruction rate. -/
def Obligations.RateNeverChanges : Prop :=
  ∀ s t : State, step s = .next t → t.instrHz = s.instrHz

/-- R239, R115: in `AwaitingKey` no instruction is fetched: an instruction step does not depend on memory or on what `PC`
points at. -/
def Obligations.AwaitingStepFetchesNothing : Prop :=
  ∀ (s t : State) (x : Reg) (m : Memory), s.mode = .awaitingKey x → s.instrStep = .next t →
    ({ s with mem := m } : State).instrStep = .next { t with mem := m } ∧ t.mem = s.mem ∧ t.diags = s.diags
end

