-- ==== Sys2Proof/Laws/Decode.lean ====
section
/-! SUPPORT. The laws of the encoding: a word as its fields, the fields of each layout, the masks of the opcode table as
conditions on nibbles, and the decoder group by group. -/

namespace Sys2Proof

/-! ### A word as its fields -/

/-- The four bits of `w` from bit `lo` up. -/
def nibbleBits (lo : Nat) (w : Word) : BitVec 4 := w.extractLsb' lo 4

theorem fieldN1_eq_nibbleBits (w : Word) : fieldN1 w = nibbleBits 12 w := rfl

theorem regBits_fieldX (w : Word) : regBits (fieldX w) = nibbleBits 8 w := rfl

theorem regBits_fieldY (w : Word) : regBits (fieldY w) = nibbleBits 4 w := rfl

theorem fieldN_eq_nibbleBits (w : Word) : fieldN w = nibbleBits 0 w := rfl

theorem regBits_injective {x y : Reg} (h : regBits x = regBits y) : x = y := by simpa [regBits] using h

theorem encodeXNN_fields (w : Word) : encodeXNN (fieldN1 w) (fieldX w) (fieldNN w) = w :=
  (congrArg (· ++ BitVec.extractLsb' 0 8 w)
    (BitVec.extractLsb'_append_extractLsb'_eq_extractLsb' (start₂ := 12) (start₁ := 8) (len₁ := 4) (len₂ := 4)
      (x := w) rfl)).trans
    (BitVec.extractLsb'_append_extractLsb' (w := 8) (len := 8) (x := w))

theorem encodeNNN_fields (w : Word) : encodeNNN (fieldN1 w) (fieldNNN w) = w :=
  BitVec.extractLsb'_append_extractLsb' (w := 4) (len := 12) (x := w)

theorem fieldNN_eq_append (w : Word) : fieldNN w = regBits (fieldY w) ++ fieldN w :=
  (BitVec.extractLsb'_append_extractLsb'_eq_extractLsb' (start₂ := 4) (start₁ := 0) (len₁ := 4) (len₂ := 4)
    (x := w) rfl).symm

theorem encodeXYN_eq (p : BitVec 4) (x y : Reg) (n : BitVec 4) :
    encodeXYN p x y n = encodeXNN p x (regBits y ++ n) := by
  unfold encodeXYN encodeXNN
  rw [BitVec.append_assoc]
  rfl

theorem encodeXYN_fields (w : Word) : encodeXYN (fieldN1 w) (fieldX w) (fieldY w) (fieldN w) = w := by
  rw [encodeXYN_eq, ← fieldNN_eq_append, encodeXNN_fields]

/-- Two words with the same nibbles are equal. -/
theorem word_ext {a b : Word} (h3 : nibbleBits 12 a = nibbleBits 12 b) (h2 : nibbleBits 8 a = nibbleBits 8 b)
    (h1 : nibbleBits 4 a = nibbleBits 4 b) (h0 : nibbleBits 0 a = nibbleBits 0 b) : a = b := by
  have hx : fieldX a = fieldX b := regBits_injective h2
  have hy : fieldY a = fieldY b := regBits_injective h1
  rw [← encodeXYN_fields a, ← encodeXYN_fields b, fieldN1_eq_nibbleBits, fieldN1_eq_nibbleBits, h3, hx, hy,
    fieldN_eq_nibbleBits, fieldN_eq_nibbleBits, h0]

/-! ### The fields of each layout -/

@[simp] theorem fieldN1_encodeXNN (p : BitVec 4) (x : Reg) (nn : Byte) : fieldN1 (encodeXNN p x nn) = p :=
  (BitVec.extractLsb'_append_eq_of_le (xhi := p ++ regBits x) (xlo := nn) (by decide)).trans
    (BitVec.extractLsb'_append_eq_left (a := p) (b := regBits x))

@[simp] theorem fieldX_encodeXNN (p : BitVec 4) (x : Reg) (nn : Byte) : fieldX (encodeXNN p x nn) = x :=
  congrArg BitVec.toFin <|
    (BitVec.extractLsb'_append_eq_of_le (xhi := p ++ regBits x) (xlo := nn) (by decide)).trans
      (BitVec.extractLsb'_append_eq_right (a := p) (b := regBits x))

@[simp] theorem fieldNN_encodeXNN (p : BitVec 4) (x : Reg) (nn : Byte) : fieldNN (encodeXNN p x nn) = nn :=
  BitVec.extractLsb'_append_eq_right (a := p ++ regBits x) (b := nn)

@[simp] theorem fieldN1_encodeNNN (p : BitVec 4) (nnn : BitVec 12) : fieldN1 (encodeNNN p nnn) = p :=
  BitVec.extractLsb'_append_eq_left (a := p) (b := nnn)

@[simp] theorem fieldNNN_encodeNNN (p : BitVec 4) (nnn : BitVec 12) : fieldNNN (encodeNNN p nnn) = nnn :=
  BitVec.extractLsb'_append_eq_right (a := p) (b := nnn)

@[simp] theorem fieldN1_encodeXYN (p : BitVec 4) (x y : Reg) (n : BitVec 4) : fieldN1 (encodeXYN p x y n) = p := by
  rw [encodeXYN_eq, fieldN1_encodeXNN]

@[simp] theorem fieldX_encodeXYN (p : BitVec 4) (x y : Reg) (n : BitVec 4) : fieldX (encodeXYN p x y n) = x := by
  rw [encodeXYN_eq, fieldX_encodeXNN]

@[simp] theorem fieldN_encodeXYN (p : BitVec 4) (x y : Reg) (n : BitVec 4) : fieldN (encodeXYN p x y n) = n :=
  BitVec.extractLsb'_append_eq_right (a := p ++ regBits x ++ regBits y) (b := n)

@[simp] theorem fieldY_encodeXYN (p : BitVec 4) (x y : Reg) (n : BitVec 4) : fieldY (encodeXYN p x y n) = y :=
  congrArg BitVec.toFin <|
    (BitVec.extractLsb'_append_eq_of_le (xhi := p ++ regBits x ++ regBits y) (xlo := n) (by decide)).trans
      (BitVec.extractLsb'_append_eq_right (a := p ++ regBits x) (b := regBits y))

/-! ### Bytes -/

theorem wordOfBytes_toNat (hi lo : Byte) : (wordOfBytes hi lo).toNat = hi.toNat * 256 + lo.toNat := by
  have h : (wordOfBytes hi lo).toNat = hi.toNat <<< 8 ||| lo.toNat := BitVec.toNat_append hi lo
  rw [h, ← Nat.shiftLeft_add_eq_or_of_lt lo.isLt, Nat.shiftLeft_eq]

@[simp] theorem wordOfBytes_split (w : Word) : wordOfBytes (highByte w) (lowByte w) = w :=
  BitVec.extractLsb'_append_extractLsb' (w := 8) (len := 8) (x := w)

/-! ### The masks of the opcode table -/

theorem nibbleBits_and (lo : Nat) (a b : Word) : nibbleBits lo (a &&& b) = nibbleBits lo a &&& nibbleBits lo b := by
  unfold nibbleBits
  ext i
  simp

theorem nibble_and_full (x : BitVec 4) : x &&& 0xF#4 = x := by revert x; decide

/-- A masked comparison, nibble by nibble. -/
theorem and_eq_iff (w m p : Word) :
    w &&& m = p ↔ nibbleBits 12 w &&& nibbleBits 12 m = nibbleBits 12 p ∧ nibbleBits 8 w &&& nibbleBits 8 m = nibbleBits 8 p ∧
      nibbleBits 4 w &&& nibbleBits 4 m = nibbleBits 4 p ∧ nibbleBits 0 w &&& nibbleBits 0 m = nibbleBits 0 p := by
  simp only [← nibbleBits_and]
  exact ⟨by rintro rfl; simp, fun h => word_ext h.1 h.2.1 h.2.2.1 h.2.2.2⟩

/-- The primary nibble alone is compared (mask 0xF000). -/
theorem maskF000 (w p : Word) (h2 : nibbleBits 8 p = 0#4) (h1 : nibbleBits 4 p = 0#4) (h0 : nibbleBits 0 p = 0#4) :
    w &&& 0xF000#16 = p ↔ fieldN1 w = fieldN1 p := by
  have hm : nibbleBits 12 0xF000#16 = 0xF#4 ∧ nibbleBits 8 0xF000#16 = 0#4 ∧ nibbleBits 4 0xF000#16 = 0#4 ∧
      nibbleBits 0 0xF000#16 = 0#4 := by decide
  rw [and_eq_iff, hm.1, hm.2.1, hm.2.2.1, hm.2.2.2, h2, h1, h0, nibble_and_full]
  simp [fieldN1_eq_nibbleBits]

/-- The primary and the trailing nibble are compared (mask 0xF00F). -/
theorem maskF00F (w p : Word) (h2 : nibbleBits 8 p = 0#4) (h1 : nibbleBits 4 p = 0#4) :
    w &&& 0xF00F#16 = p ↔ fieldN1 w = fieldN1 p ∧ fieldN w = fieldN p := by
  have hm : nibbleBits 12 0xF00F#16 = 0xF#4 ∧ nibbleBits 8 0xF00F#16 = 0#4 ∧ nibbleBits 4 0xF00F#16 = 0#4 ∧
      nibbleBits 0 0xF00F#16 = 0xF#4 := by decide
  rw [and_eq_iff, hm.1, hm.2.1, hm.2.2.1, hm.2.2.2, h2, h1, nibble_and_full, nibble_and_full]
  simp [fieldN1_eq_nibbleBits, fieldN_eq_nibbleBits]

theorem fieldNN_eq_iff (w p : Word) :
    fieldNN w = fieldNN p ↔ nibbleBits 4 w = nibbleBits 4 p ∧ nibbleBits 0 w = nibbleBits 0 p := by
  have hx : ∀ v : Word, encodeXNN 0#4 0 (fieldNN v) = encodeXYN 0#4 0 (fieldY v) (fieldN v) := fun v => by
    rw [encodeXYN_eq, fieldNN_eq_append]
  constructor
  · intro h
    have h := congrArg (encodeXNN 0#4 0) h
    rw [hx, hx] at h
    have hy : fieldY w = fieldY p := by simpa using congrArg fieldY h
    have hn : fieldN w = fieldN p := by simpa using congrArg fieldN h
    exact ⟨congrArg regBits hy, hn⟩
  · rintro ⟨h1, h0⟩
    rw [fieldNN_eq_append, fieldNN_eq_append, regBits_fieldY, regBits_fieldY, h1, fieldN_eq_nibbleBits,
      fieldN_eq_nibbleBits, h0]

/-- The primary nibble and the trailing byte are compared (mask 0xF0FF). -/
theorem maskF0FF (w p : Word) (h2 : nibbleBits 8 p = 0#4) :
    w &&& 0xF0FF#16 = p ↔ fieldN1 w = fieldN1 p ∧ fieldNN w = fieldNN p := by
  have hm : nibbleBits 12 0xF0FF#16 = 0xF#4 ∧ nibbleBits 8 0xF0FF#16 = 0#4 ∧ nibbleBits 4 0xF0FF#16 = 0xF#4 ∧
      nibbleBits 0 0xF0FF#16 = 0xF#4 := by decide
  rw [and_eq_iff, hm.1, hm.2.1, hm.2.2.1, hm.2.2.2, h2, nibble_and_full, nibble_and_full, nibble_and_full,
    fieldNN_eq_iff]
  simp [fieldN1_eq_nibbleBits]

/-! ### The decoder -/

theorem decodeWord_ok_iff (w : Word) (i : Instr) : decodeWord w = .ok i ↔ decodeWord? w = some i := by
  unfold decodeWord
  cases decodeWord? w <;> simp

theorem decodeWord_error_iff (w : Word) (e : DecodeError) :
    decodeWord w = .error e ↔ decodeWord? w = none ∧ e = .unmapped w := by
  unfold decodeWord
  cases decodeWord? w <;> simp [eq_comm]

end Sys2Proof
end

