-- ==== Sys2Proof/Laws/State.lean ====
section
/-! SUPPORT. What each update of the state does to each field: one lemma per field per update, so that no proof unfolds a
record update. -/

namespace Sys2Proof.Machine

variable (s : State)

/-! ### `State.advance` -/

@[simp] theorem State.advance_v : s.advance.v = s.v := rfl
@[simp] theorem State.advance_i : s.advance.i = s.i := rfl
@[simp] theorem State.advance_pc : s.advance.pc = s.pc + 2#16 := rfl
@[simp] theorem State.advance_stack : s.advance.stack = s.stack := rfl
@[simp] theorem State.advance_dt : s.advance.dt = s.dt := rfl
@[simp] theorem State.advance_st : s.advance.st = s.st := rfl
@[simp] theorem State.advance_mem : s.advance.mem = s.mem := rfl
@[simp] theorem State.advance_fb : s.advance.fb = s.fb := rfl
@[simp] theorem State.advance_keyDown : s.advance.keyDown = s.keyDown := rfl
@[simp] theorem State.advance_mode : s.advance.mode = s.mode := rfl
@[simp] theorem State.advance_captured : s.advance.captured = s.captured := rfl
@[simp] theorem State.advance_loaded : s.advance.loaded = s.loaded := rfl
@[simp] theorem State.advance_t0 : s.advance.t0 = s.t0 := rfl
@[simp] theorem State.advance_instrDone : s.advance.instrDone = s.instrDone := rfl
@[simp] theorem State.advance_timerDone : s.advance.timerDone = s.timerDone := rfl
@[simp] theorem State.advance_instrHz : s.advance.instrHz = s.instrHz := rfl
@[simp] theorem State.advance_diags : s.advance.diags = s.diags := rfl
@[simp] theorem State.advance_loadResult : s.advance.loadResult = s.loadResult := rfl
@[simp] theorem State.advance_calls : s.advance.calls = s.calls := rfl
@[simp] theorem State.advance_terminated : s.advance.terminated = s.terminated := rfl
@[simp] theorem State.advance_rngDraws : s.advance.rngDraws = s.rngDraws := rfl

/-! ### `State.setV` -/

@[simp] theorem State.setV_v (x : Reg) (b : Byte) : (s.setV x b).v = s.v.set x b := rfl
@[simp] theorem State.setV_i (x : Reg) (b : Byte) : (s.setV x b).i = s.i := rfl
@[simp] theorem State.setV_pc (x : Reg) (b : Byte) : (s.setV x b).pc = s.pc := rfl
@[simp] theorem State.setV_stack (x : Reg) (b : Byte) : (s.setV x b).stack = s.stack := rfl
@[simp] theorem State.setV_dt (x : Reg) (b : Byte) : (s.setV x b).dt = s.dt := rfl
@[simp] theorem State.setV_st (x : Reg) (b : Byte) : (s.setV x b).st = s.st := rfl
@[simp] theorem State.setV_mem (x : Reg) (b : Byte) : (s.setV x b).mem = s.mem := rfl
@[simp] theorem State.setV_fb (x : Reg) (b : Byte) : (s.setV x b).fb = s.fb := rfl
@[simp] theorem State.setV_keyDown (x : Reg) (b : Byte) : (s.setV x b).keyDown = s.keyDown := rfl
@[simp] theorem State.setV_mode (x : Reg) (b : Byte) : (s.setV x b).mode = s.mode := rfl
@[simp] theorem State.setV_captured (x : Reg) (b : Byte) : (s.setV x b).captured = s.captured := rfl
@[simp] theorem State.setV_loaded (x : Reg) (b : Byte) : (s.setV x b).loaded = s.loaded := rfl
@[simp] theorem State.setV_t0 (x : Reg) (b : Byte) : (s.setV x b).t0 = s.t0 := rfl
@[simp] theorem State.setV_instrDone (x : Reg) (b : Byte) : (s.setV x b).instrDone = s.instrDone := rfl
@[simp] theorem State.setV_timerDone (x : Reg) (b : Byte) : (s.setV x b).timerDone = s.timerDone := rfl
@[simp] theorem State.setV_instrHz (x : Reg) (b : Byte) : (s.setV x b).instrHz = s.instrHz := rfl
@[simp] theorem State.setV_diags (x : Reg) (b : Byte) : (s.setV x b).diags = s.diags := rfl
@[simp] theorem State.setV_loadResult (x : Reg) (b : Byte) : (s.setV x b).loadResult = s.loadResult := rfl
@[simp] theorem State.setV_calls (x : Reg) (b : Byte) : (s.setV x b).calls = s.calls := rfl
@[simp] theorem State.setV_terminated (x : Reg) (b : Byte) : (s.setV x b).terminated = s.terminated := rfl
@[simp] theorem State.setV_rngDraws (x : Reg) (b : Byte) : (s.setV x b).rngDraws = s.rngDraws := rfl

/-! ### `State.jump` -/

@[simp] theorem State.jump_v (a : Word) : (s.jump a).v = s.v := rfl
@[simp] theorem State.jump_i (a : Word) : (s.jump a).i = s.i := rfl
@[simp] theorem State.jump_pc (a : Word) : (s.jump a).pc = a := rfl
@[simp] theorem State.jump_stack (a : Word) : (s.jump a).stack = s.stack := rfl
@[simp] theorem State.jump_dt (a : Word) : (s.jump a).dt = s.dt := rfl
@[simp] theorem State.jump_st (a : Word) : (s.jump a).st = s.st := rfl
@[simp] theorem State.jump_mem (a : Word) : (s.jump a).mem = s.mem := rfl
@[simp] theorem State.jump_fb (a : Word) : (s.jump a).fb = s.fb := rfl
@[simp] theorem State.jump_keyDown (a : Word) : (s.jump a).keyDown = s.keyDown := rfl
@[simp] theorem State.jump_mode (a : Word) : (s.jump a).mode = s.mode := rfl
@[simp] theorem State.jump_captured (a : Word) : (s.jump a).captured = s.captured := rfl
@[simp] theorem State.jump_loaded (a : Word) : (s.jump a).loaded = s.loaded := rfl
@[simp] theorem State.jump_t0 (a : Word) : (s.jump a).t0 = s.t0 := rfl
@[simp] theorem State.jump_instrDone (a : Word) : (s.jump a).instrDone = s.instrDone := rfl
@[simp] theorem State.jump_timerDone (a : Word) : (s.jump a).timerDone = s.timerDone := rfl
@[simp] theorem State.jump_instrHz (a : Word) : (s.jump a).instrHz = s.instrHz := rfl
@[simp] theorem State.jump_diags (a : Word) : (s.jump a).diags = s.diags := rfl
@[simp] theorem State.jump_loadResult (a : Word) : (s.jump a).loadResult = s.loadResult := rfl
@[simp] theorem State.jump_calls (a : Word) : (s.jump a).calls = s.calls := rfl
@[simp] theorem State.jump_terminated (a : Word) : (s.jump a).terminated = s.terminated := rfl
@[simp] theorem State.jump_rngDraws (a : Word) : (s.jump a).rngDraws = s.rngDraws := rfl

/-! ### `State.push` -/

@[simp] theorem State.push_v (a : Word) : (s.push a).v = s.v := rfl
@[simp] theorem State.push_i (a : Word) : (s.push a).i = s.i := rfl
@[simp] theorem State.push_pc (a : Word) : (s.push a).pc = s.pc := rfl
@[simp] theorem State.push_stack (a : Word) : (s.push a).stack = s.stack ++ [a] := rfl
@[simp] theorem State.push_dt (a : Word) : (s.push a).dt = s.dt := rfl
@[simp] theorem State.push_st (a : Word) : (s.push a).st = s.st := rfl
@[simp] theorem State.push_mem (a : Word) : (s.push a).mem = s.mem := rfl
@[simp] theorem State.push_fb (a : Word) : (s.push a).fb = s.fb := rfl
@[simp] theorem State.push_keyDown (a : Word) : (s.push a).keyDown = s.keyDown := rfl
@[simp] theorem State.push_mode (a : Word) : (s.push a).mode = s.mode := rfl
@[simp] theorem State.push_captured (a : Word) : (s.push a).captured = s.captured := rfl
@[simp] theorem State.push_loaded (a : Word) : (s.push a).loaded = s.loaded := rfl
@[simp] theorem State.push_t0 (a : Word) : (s.push a).t0 = s.t0 := rfl
@[simp] theorem State.push_instrDone (a : Word) : (s.push a).instrDone = s.instrDone := rfl
@[simp] theorem State.push_timerDone (a : Word) : (s.push a).timerDone = s.timerDone := rfl
@[simp] theorem State.push_instrHz (a : Word) : (s.push a).instrHz = s.instrHz := rfl
@[simp] theorem State.push_diags (a : Word) : (s.push a).diags = s.diags := rfl
@[simp] theorem State.push_loadResult (a : Word) : (s.push a).loadResult = s.loadResult := rfl
@[simp] theorem State.push_calls (a : Word) : (s.push a).calls = s.calls := rfl
@[simp] theorem State.push_terminated (a : Word) : (s.push a).terminated = s.terminated := rfl
@[simp] theorem State.push_rngDraws (a : Word) : (s.push a).rngDraws = s.rngDraws := rfl

/-! ### `State.dropTop` -/

@[simp] theorem State.dropTop_v : s.dropTop.v = s.v := rfl
@[simp] theorem State.dropTop_i : s.dropTop.i = s.i := rfl
@[simp] theorem State.dropTop_pc : s.dropTop.pc = s.pc := rfl
@[simp] theorem State.dropTop_stack : s.dropTop.stack = s.stack.dropLast := rfl
@[simp] theorem State.dropTop_dt : s.dropTop.dt = s.dt := rfl
@[simp] theorem State.dropTop_st : s.dropTop.st = s.st := rfl
@[simp] theorem State.dropTop_mem : s.dropTop.mem = s.mem := rfl
@[simp] theorem State.dropTop_fb : s.dropTop.fb = s.fb := rfl
@[simp] theorem State.dropTop_keyDown : s.dropTop.keyDown = s.keyDown := rfl
@[simp] theorem State.dropTop_mode : s.dropTop.mode = s.mode := rfl
@[simp] theorem State.dropTop_captured : s.dropTop.captured = s.captured := rfl
@[simp] theorem State.dropTop_loaded : s.dropTop.loaded = s.loaded := rfl
@[simp] theorem State.dropTop_t0 : s.dropTop.t0 = s.t0 := rfl
@[simp] theorem State.dropTop_instrDone : s.dropTop.instrDone = s.instrDone := rfl
@[simp] theorem State.dropTop_timerDone : s.dropTop.timerDone = s.timerDone := rfl
@[simp] theorem State.dropTop_instrHz : s.dropTop.instrHz = s.instrHz := rfl
@[simp] theorem State.dropTop_diags : s.dropTop.diags = s.diags := rfl
@[simp] theorem State.dropTop_loadResult : s.dropTop.loadResult = s.loadResult := rfl
@[simp] theorem State.dropTop_calls : s.dropTop.calls = s.calls := rfl
@[simp] theorem State.dropTop_terminated : s.dropTop.terminated = s.terminated := rfl
@[simp] theorem State.dropTop_rngDraws : s.dropTop.rngDraws = s.rngDraws := rfl

/-! ### `State.emit` -/

@[simp] theorem State.emit_v (k : DiagKind) (p w : Word) : (s.emit k p w).v = s.v := rfl
@[simp] theorem State.emit_i (k : DiagKind) (p w : Word) : (s.emit k p w).i = s.i := rfl
@[simp] theorem State.emit_pc (k : DiagKind) (p w : Word) : (s.emit k p w).pc = s.pc := rfl
@[simp] theorem State.emit_stack (k : DiagKind) (p w : Word) : (s.emit k p w).stack = s.stack := rfl
@[simp] theorem State.emit_dt (k : DiagKind) (p w : Word) : (s.emit k p w).dt = s.dt := rfl
@[simp] theorem State.emit_st (k : DiagKind) (p w : Word) : (s.emit k p w).st = s.st := rfl
@[simp] theorem State.emit_mem (k : DiagKind) (p w : Word) : (s.emit k p w).mem = s.mem := rfl
@[simp] theorem State.emit_fb (k : DiagKind) (p w : Word) : (s.emit k p w).fb = s.fb := rfl
@[simp] theorem State.emit_keyDown (k : DiagKind) (p w : Word) : (s.emit k p w).keyDown = s.keyDown := rfl
@[simp] theorem State.emit_mode (k : DiagKind) (p w : Word) : (s.emit k p w).mode = s.mode := rfl
@[simp] theorem State.emit_captured (k : DiagKind) (p w : Word) : (s.emit k p w).captured = s.captured := rfl
@[simp] theorem State.emit_loaded (k : DiagKind) (p w : Word) : (s.emit k p w).loaded = s.loaded := rfl
@[simp] theorem State.emit_t0 (k : DiagKind) (p w : Word) : (s.emit k p w).t0 = s.t0 := rfl
@[simp] theorem State.emit_instrDone (k : DiagKind) (p w : Word) : (s.emit k p w).instrDone = s.instrDone := rfl
@[simp] theorem State.emit_timerDone (k : DiagKind) (p w : Word) : (s.emit k p w).timerDone = s.timerDone := rfl
@[simp] theorem State.emit_instrHz (k : DiagKind) (p w : Word) : (s.emit k p w).instrHz = s.instrHz := rfl
@[simp] theorem State.emit_diags (k : DiagKind) (p w : Word) : (s.emit k p w).diags = s.diags ++ [⟨k, p, w⟩] := rfl
@[simp] theorem State.emit_loadResult (k : DiagKind) (p w : Word) : (s.emit k p w).loadResult = s.loadResult := rfl
@[simp] theorem State.emit_calls (k : DiagKind) (p w : Word) : (s.emit k p w).calls = s.calls := rfl
@[simp] theorem State.emit_terminated (k : DiagKind) (p w : Word) : (s.emit k p w).terminated = s.terminated := rfl
@[simp] theorem State.emit_rngDraws (k : DiagKind) (p w : Word) : (s.emit k p w).rngDraws = s.rngDraws := rfl

/-! ### `State.countDraw` -/

@[simp] theorem State.countDraw_v : s.countDraw.v = s.v := rfl
@[simp] theorem State.countDraw_i : s.countDraw.i = s.i := rfl
@[simp] theorem State.countDraw_pc : s.countDraw.pc = s.pc := rfl
@[simp] theorem State.countDraw_stack : s.countDraw.stack = s.stack := rfl
@[simp] theorem State.countDraw_dt : s.countDraw.dt = s.dt := rfl
@[simp] theorem State.countDraw_st : s.countDraw.st = s.st := rfl
@[simp] theorem State.countDraw_mem : s.countDraw.mem = s.mem := rfl
@[simp] theorem State.countDraw_fb : s.countDraw.fb = s.fb := rfl
@[simp] theorem State.countDraw_keyDown : s.countDraw.keyDown = s.keyDown := rfl
@[simp] theorem State.countDraw_mode : s.countDraw.mode = s.mode := rfl
@[simp] theorem State.countDraw_captured : s.countDraw.captured = s.captured := rfl
@[simp] theorem State.countDraw_loaded : s.countDraw.loaded = s.loaded := rfl
@[simp] theorem State.countDraw_t0 : s.countDraw.t0 = s.t0 := rfl
@[simp] theorem State.countDraw_instrDone : s.countDraw.instrDone = s.instrDone := rfl
@[simp] theorem State.countDraw_timerDone : s.countDraw.timerDone = s.timerDone := rfl
@[simp] theorem State.countDraw_instrHz : s.countDraw.instrHz = s.instrHz := rfl
@[simp] theorem State.countDraw_diags : s.countDraw.diags = s.diags := rfl
@[simp] theorem State.countDraw_loadResult : s.countDraw.loadResult = s.loadResult := rfl
@[simp] theorem State.countDraw_calls : s.countDraw.calls = s.calls := rfl
@[simp] theorem State.countDraw_terminated : s.countDraw.terminated = s.terminated := rfl
@[simp] theorem State.countDraw_rngDraws : s.countDraw.rngDraws = s.rngDraws + 1 := rfl

/-! ### `State.setI` -/

@[simp] theorem State.setI_v (a : Word) : (s.setI a).v = s.v := rfl
@[simp] theorem State.setI_i (a : Word) : (s.setI a).i = a := rfl
@[simp] theorem State.setI_pc (a : Word) : (s.setI a).pc = s.pc := rfl
@[simp] theorem State.setI_stack (a : Word) : (s.setI a).stack = s.stack := rfl
@[simp] theorem State.setI_dt (a : Word) : (s.setI a).dt = s.dt := rfl
@[simp] theorem State.setI_st (a : Word) : (s.setI a).st = s.st := rfl
@[simp] theorem State.setI_mem (a : Word) : (s.setI a).mem = s.mem := rfl
@[simp] theorem State.setI_fb (a : Word) : (s.setI a).fb = s.fb := rfl
@[simp] theorem State.setI_keyDown (a : Word) : (s.setI a).keyDown = s.keyDown := rfl
@[simp] theorem State.setI_mode (a : Word) : (s.setI a).mode = s.mode := rfl
@[simp] theorem State.setI_captured (a : Word) : (s.setI a).captured = s.captured := rfl
@[simp] theorem State.setI_loaded (a : Word) : (s.setI a).loaded = s.loaded := rfl
@[simp] theorem State.setI_t0 (a : Word) : (s.setI a).t0 = s.t0 := rfl
@[simp] theorem State.setI_instrDone (a : Word) : (s.setI a).instrDone = s.instrDone := rfl
@[simp] theorem State.setI_timerDone (a : Word) : (s.setI a).timerDone = s.timerDone := rfl
@[simp] theorem State.setI_instrHz (a : Word) : (s.setI a).instrHz = s.instrHz := rfl
@[simp] theorem State.setI_diags (a : Word) : (s.setI a).diags = s.diags := rfl
@[simp] theorem State.setI_loadResult (a : Word) : (s.setI a).loadResult = s.loadResult := rfl
@[simp] theorem State.setI_calls (a : Word) : (s.setI a).calls = s.calls := rfl
@[simp] theorem State.setI_terminated (a : Word) : (s.setI a).terminated = s.terminated := rfl
@[simp] theorem State.setI_rngDraws (a : Word) : (s.setI a).rngDraws = s.rngDraws := rfl

/-! ### `State.timerTick` -/

@[simp] theorem State.timerTick_v : s.timerTick.v = s.v := rfl
@[simp] theorem State.timerTick_i : s.timerTick.i = s.i := rfl
@[simp] theorem State.timerTick_pc : s.timerTick.pc = s.pc := rfl
@[simp] theorem State.timerTick_stack : s.timerTick.stack = s.stack := rfl
@[simp] theorem State.timerTick_dt : s.timerTick.dt = countDown s.dt := rfl
@[simp] theorem State.timerTick_st : s.timerTick.st = countDown s.st := rfl
@[simp] theorem State.timerTick_mem : s.timerTick.mem = s.mem := rfl
@[simp] theorem State.timerTick_fb : s.timerTick.fb = s.fb := rfl
@[simp] theorem State.timerTick_keyDown : s.timerTick.keyDown = s.keyDown := rfl
@[simp] theorem State.timerTick_mode : s.timerTick.mode = s.mode := rfl
@[simp] theorem State.timerTick_captured : s.timerTick.captured = s.captured := rfl
@[simp] theorem State.timerTick_loaded : s.timerTick.loaded = s.loaded := rfl
@[simp] theorem State.timerTick_t0 : s.timerTick.t0 = s.t0 := rfl
@[simp] theorem State.timerTick_instrDone : s.timerTick.instrDone = s.instrDone := rfl
@[simp] theorem State.timerTick_timerDone : s.timerTick.timerDone = s.timerDone := rfl
@[simp] theorem State.timerTick_instrHz : s.timerTick.instrHz = s.instrHz := rfl
@[simp] theorem State.timerTick_diags : s.timerTick.diags = s.diags := rfl
@[simp] theorem State.timerTick_loadResult : s.timerTick.loadResult = s.loadResult := rfl
@[simp] theorem State.timerTick_calls : s.timerTick.calls = s.calls := rfl
@[simp] theorem State.timerTick_terminated : s.timerTick.terminated = s.terminated := rfl
@[simp] theorem State.timerTick_rngDraws : s.timerTick.rngDraws = s.rngDraws := rfl

/-! ### `State.memWrite` -/

@[simp] theorem State.memWrite_v (a : Nat) (b : Byte) : (s.memWrite a b).v = s.v := by unfold State.memWrite; split <;> rfl
@[simp] theorem State.memWrite_i (a : Nat) (b : Byte) : (s.memWrite a b).i = s.i := by unfold State.memWrite; split <;> rfl
@[simp] theorem State.memWrite_pc (a : Nat) (b : Byte) : (s.memWrite a b).pc = s.pc := by unfold State.memWrite; split <;> rfl
@[simp] theorem State.memWrite_stack (a : Nat) (b : Byte) : (s.memWrite a b).stack = s.stack := by unfold State.memWrite; split <;> rfl
@[simp] theorem State.memWrite_dt (a : Nat) (b : Byte) : (s.memWrite a b).dt = s.dt := by unfold State.memWrite; split <;> rfl
@[simp] theorem State.memWrite_st (a : Nat) (b : Byte) : (s.memWrite a b).st = s.st := by unfold State.memWrite; split <;> rfl
@[simp] theorem State.memWrite_mem (a : Nat) (b : Byte) :
    (s.memWrite a b).mem = if writable a then setCell s.mem a b else s.mem := by unfold State.memWrite; split <;> rfl
@[simp] theorem State.memWrite_fb (a : Nat) (b : Byte) : (s.memWrite a b).fb = s.fb := by unfold State.memWrite; split <;> rfl
@[simp] theorem State.memWrite_keyDown (a : Nat) (b : Byte) : (s.memWrite a b).keyDown = s.keyDown := by unfold State.memWrite; split <;> rfl
@[simp] theorem State.memWrite_mode (a : Nat) (b : Byte) : (s.memWrite a b).mode = s.mode := by unfold State.memWrite; split <;> rfl
@[simp] theorem State.memWrite_captured (a : Nat) (b : Byte) : (s.memWrite a b).captured = s.captured := by unfold State.memWrite; split <;> rfl
@[simp] theorem State.memWrite_loaded (a : Nat) (b : Byte) : (s.memWrite a b).loaded = s.loaded := by unfold State.memWrite; split <;> rfl
@[simp] theorem State.memWrite_t0 (a : Nat) (b : Byte) : (s.memWrite a b).t0 = s.t0 := by unfold State.memWrite; split <;> rfl
@[simp] theorem State.memWrite_instrDone (a : Nat) (b : Byte) : (s.memWrite a b).instrDone = s.instrDone := by unfold State.memWrite; split <;> rfl
@[simp] theorem State.memWrite_timerDone (a : Nat) (b : Byte) : (s.memWrite a b).timerDone = s.timerDone := by unfold State.memWrite; split <;> rfl
@[simp] theorem State.memWrite_instrHz (a : Nat) (b : Byte) : (s.memWrite a b).instrHz = s.instrHz := by unfold State.memWrite; split <;> rfl
@[simp] theorem State.memWrite_diags (a : Nat) (b : Byte) : (s.memWrite a b).diags = s.diags := by unfold State.memWrite; split <;> rfl
@[simp] theorem State.memWrite_loadResult (a : Nat) (b : Byte) : (s.memWrite a b).loadResult = s.loadResult := by unfold State.memWrite; split <;> rfl
@[simp] theorem State.memWrite_calls (a : Nat) (b : Byte) : (s.memWrite a b).calls = s.calls := by unfold State.memWrite; split <;> rfl
@[simp] theorem State.memWrite_terminated (a : Nat) (b : Byte) : (s.memWrite a b).terminated = s.terminated := by unfold State.memWrite; split <;> rfl
@[simp] theorem State.memWrite_rngDraws (a : Nat) (b : Byte) : (s.memWrite a b).rngDraws = s.rngDraws := by unfold State.memWrite; split <;> rfl

/-! ### `State.skipIf` -/

@[simp] theorem State.skipIf_v (c : Bool) : (s.skipIf c).v = s.v := by cases c <;> rfl
@[simp] theorem State.skipIf_i (c : Bool) : (s.skipIf c).i = s.i := by cases c <;> rfl
@[simp] theorem State.skipIf_pc (c : Bool) : (s.skipIf c).pc = if c then s.pc + 2#16 else s.pc := by cases c <;> rfl
@[simp] theorem State.skipIf_stack (c : Bool) : (s.skipIf c).stack = s.stack := by cases c <;> rfl
@[simp] theorem State.skipIf_dt (c : Bool) : (s.skipIf c).dt = s.dt := by cases c <;> rfl
@[simp] theorem State.skipIf_st (c : Bool) : (s.skipIf c).st = s.st := by cases c <;> rfl
@[simp] theorem State.skipIf_mem (c : Bool) : (s.skipIf c).mem = s.mem := by cases c <;> rfl
@[simp] theorem State.skipIf_fb (c : Bool) : (s.skipIf c).fb = s.fb := by cases c <;> rfl
@[simp] theorem State.skipIf_keyDown (c : Bool) : (s.skipIf c).keyDown = s.keyDown := by cases c <;> rfl
@[simp] theorem State.skipIf_mode (c : Bool) : (s.skipIf c).mode = s.mode := by cases c <;> rfl
@[simp] theorem State.skipIf_captured (c : Bool) : (s.skipIf c).captured = s.captured := by cases c <;> rfl
@[simp] theorem State.skipIf_loaded (c : Bool) : (s.skipIf c).loaded = s.loaded := by cases c <;> rfl
@[simp] theorem State.skipIf_t0 (c : Bool) : (s.skipIf c).t0 = s.t0 := by cases c <;> rfl
@[simp] theorem State.skipIf_instrDone (c : Bool) : (s.skipIf c).instrDone = s.instrDone := by cases c <;> rfl
@[simp] theorem State.skipIf_timerDone (c : Bool) : (s.skipIf c).timerDone = s.timerDone := by cases c <;> rfl
@[simp] theorem State.skipIf_instrHz (c : Bool) : (s.skipIf c).instrHz = s.instrHz := by cases c <;> rfl
@[simp] theorem State.skipIf_diags (c : Bool) : (s.skipIf c).diags = s.diags := by cases c <;> rfl
@[simp] theorem State.skipIf_loadResult (c : Bool) : (s.skipIf c).loadResult = s.loadResult := by cases c <;> rfl
@[simp] theorem State.skipIf_calls (c : Bool) : (s.skipIf c).calls = s.calls := by cases c <;> rfl
@[simp] theorem State.skipIf_terminated (c : Bool) : (s.skipIf c).terminated = s.terminated := by cases c <;> rfl
@[simp] theorem State.skipIf_rngDraws (c : Bool) : (s.skipIf c).rngDraws = s.rngDraws := by cases c <;> rfl

end Sys2Proof.Machine
end

