-- ==== Sys2Proof/Laws/Registers.lean ====
section
/-! SUPPORT. The laws of the general registers and the flag. -/

namespace Sys2Proof.Machine

theorem State.getV_congr {s t : State} (h : t.v = s.v) (r : Reg) : t.getV r = s.getV r := by
  simp [State.getV, h]

/-- A register after a write. -/
theorem State.getV_setV (s : State) (x : Reg) (b : Byte) (r : Reg) :
    (s.setV x b).getV r = if r = x then b else s.getV r := by
  simp only [State.getV, State.setV_v, Fin.getElem_fin, Vector.getElem_set, Fin.ext_iff]
  by_cases h : x.val = r.val
  · simp [h]
  · simp [h, Ne.symm h]

@[simp] theorem State.getV_setV_self (s : State) (x : Reg) (b : Byte) : (s.setV x b).getV x = b := by
  simp [State.getV_setV]

theorem State.getV_setV_ne (s : State) {x r : Reg} (b : Byte) (h : r ≠ x) : (s.setV x b).getV r = s.getV r := by
  simp [State.getV_setV, h]

@[simp] theorem State.getV_advance (s : State) (r : Reg) : s.advance.getV r = s.getV r := rfl

/-- A register after the two writes of R165: VF holds the flag, also where it is the destination. -/
theorem State.getV_setWithFlag (s : State) (x : Reg) (b : Byte) (f : Bool) (r : Reg) :
    (s.setWithFlag x b f).getV r = if r = regVF then flagByte f else if r = x then b else s.getV r := by
  simp [State.setWithFlag, State.setVF, State.getV_setV]

theorem flagByte_eq_one (f : Bool) : flagByte f = 1#8 ↔ f = true := by cases f <;> decide

theorem flagByte_eq_zero (f : Bool) : flagByte f = 0#8 ↔ f = false := by cases f <;> decide

/-! ### The registers that FX55 and FX65 move -/

theorem mem_regsUpTo (x r : Reg) : r ∈ regsUpTo x ↔ r ≤ x := by
  have h : r ∈ allRegs := by revert r; decide
  simp [regsUpTo, h]

theorem regsUpTo_nodup (x : Reg) : (regsUpTo x).Nodup := by revert x; decide

end Sys2Proof.Machine
end

