-- ==== Sys2Proof/Laws/Display.lean ====
section
/-! SUPPORT. The laws of the display: a pixel after a write, and what drawing a sprite leaves (R202 to R205). -/

namespace Sys2Proof.Machine

theorem pixelAt_outside (fb : Display) {x y : Nat} (h : ¬ (y < 32 ∧ x < 64)) : pixelAt fb x y = false := by
  simp [pixelAt, h]

/-- A pixel after a write. -/
theorem pixelAt_setPixel (fb : Display) (x y : Nat) (on : Bool) (px py : Nat) :
    pixelAt (setPixel fb x y on) px py = if px = x ∧ py = y ∧ y < 32 ∧ x < 64 then on else pixelAt fb px py := by
  unfold setPixel
  split
  next h =>
    unfold pixelAt
    by_cases hp : py < 32 ∧ px < 64
    · rw [dif_pos hp, dif_pos hp]
      by_cases hy : y = py
      · subst hy
        by_cases hx : x = px
        · subst hx; simp [h]
        · simp [hx, Ne.symm hx]
      · simp [hy, Ne.symm hy]
    · rw [dif_neg hp, dif_neg hp, if_neg (by rintro ⟨rfl, rfl, h2⟩; exact hp h)]
  next h => rw [if_neg fun h2 => h h2.2.2]

/-- Two displays with the same pixels are equal. -/
theorem display_ext {a b : Display} (h : ∀ x y, pixelAt a x y = pixelAt b x y) : a = b := by
  ext y hy x hx
  have := h x y
  simpa [pixelAt, hy, hx] using this

theorem pixelAt_clearDisplay (x y : Nat) : pixelAt clearDisplay x y = false := by
  unfold pixelAt
  split
  · simp [clearDisplay]
  · rfl

/-! ### Drawing -/

/-- The columns `c < k` of the row `py = y` that a sprite row `b` at column `x0` lights. -/
def RowLights (x0 y : Nat) (b : Byte) (k px py : Nat) : Prop :=
  py = y ∧ x0 ≤ px ∧ px < x0 + k ∧ px ≤ 63 ∧ spriteBit b (px - x0) = true

/-- What a drawing that lights exactly `L` leaves: each lit place is inverted, and the flag is set when a lit place was
on. -/
def Inverts (L : Nat → Nat → Prop) (d e : Drawing) : Prop :=
  (∀ px py, L px py → pixelAt e.1 px py = !pixelAt d.1 px py) ∧
  (∀ px py, ¬ L px py → pixelAt e.1 px py = pixelAt d.1 px py) ∧
  (e.2 = true ↔ d.2 = true ∨ ∃ px py, L px py ∧ pixelAt d.1 px py = true)

theorem Inverts.congr {L M : Nat → Nat → Prop} {d e : Drawing} (h : Inverts L d e) (hLM : ∀ px py, M px py ↔ L px py) :
    Inverts M d e :=
  (funext₂ fun px py => propext (hLM px py) : M = L) ▸ h

theorem Inverts.refl {L : Nat → Nat → Prop} (d : Drawing) (hL : ∀ px py, ¬ L px py) : Inverts L d d :=
  ⟨fun _ _ h => absurd h (hL _ _), fun _ _ _ => rfl, by simp [hL]⟩

/-- Two drawings that light disjoint places, one after the other. -/
theorem Inverts.trans {L M : Nat → Nat → Prop} {d e f : Drawing} (h₁ : Inverts L d e) (h₂ : Inverts M e f)
    (hd : ∀ px py, L px py → ¬ M px py) : Inverts (fun px py => L px py ∨ M px py) d f := by
  refine ⟨fun px py h => ?_, fun px py h => ?_, ?_⟩
  · rcases h with h | h
    · rw [h₂.2.1 _ _ (hd _ _ h), h₁.1 _ _ h]
    · rw [h₂.1 _ _ h, h₁.2.1 _ _ fun hL => hd _ _ hL h]
  · rw [h₂.2.1 _ _ fun hM => h (.inr hM), h₁.2.1 _ _ fun hL => h (.inl hL)]
  · rw [h₂.2.2, h₁.2.2]
    constructor
    · rintro ((h | ⟨px, py, h, hp⟩) | ⟨px, py, h, hp⟩)
      · exact .inl h
      · exact .inr ⟨px, py, .inl h, hp⟩
      · exact .inr ⟨px, py, .inr h, by rwa [h₁.2.1 _ _ fun hL => hd _ _ hL h] at hp⟩
    · rintro (h | ⟨px, py, h | h, hp⟩)
      · exact .inl (.inl h)
      · exact .inl (.inr ⟨px, py, h, hp⟩)
      · exact .inr ⟨px, py, h, by rwa [h₁.2.1 _ _ fun hL => hd _ _ hL h]⟩

theorem drawPixel_inverts (x0 y : Nat) (b : Byte) (d : Drawing) (c : Nat) (hy : y ≤ 31) :
    Inverts (fun px py => py = y ∧ px = x0 + c ∧ px ≤ 63 ∧ spriteBit b c = true) d (drawPixel x0 y b d c) := by
  unfold drawPixel
  split
  next h =>
    refine ⟨fun px py hL => ?_, fun px py hL => ?_, ?_⟩
    · obtain ⟨rfl, rfl, _⟩ := hL
      simp only [pixelAt_setPixel, true_and]
      rw [if_pos ⟨by omega, by omega⟩]
    · simp only [pixelAt_setPixel]
      rw [if_neg]
      rintro ⟨rfl, rfl, _⟩
      exact hL ⟨rfl, rfl, h.1, h.2⟩
    · simp only [Bool.or_eq_true]
      refine or_congr_right ⟨fun hp => ⟨_, _, ⟨rfl, rfl, h.1, h.2⟩, hp⟩, ?_⟩
      rintro ⟨px, py, ⟨rfl, rfl, _⟩, hp⟩
      exact hp
  next h => exact Inverts.refl d fun px py hL => h ⟨hL.2.1 ▸ hL.2.2.1, hL.2.2.2⟩

theorem drawCols_inverts (x0 y : Nat) (b : Byte) (d : Drawing) (k : Nat) (hy : y ≤ 31) :
    Inverts (RowLights x0 y b k) d ((List.range k).foldl (drawPixel x0 y b) d) := by
  induction k with
  | zero => exact Inverts.refl d fun px py h => by unfold RowLights at h; omega
  | succ k ih =>
    rw [List.range_succ, List.foldl_append]
    refine (ih.trans (drawPixel_inverts x0 y b _ k hy) fun px py h1 h2 => ?_).congr fun px py => ?_
    · unfold RowLights at h1; omega
    · unfold RowLights
      constructor
      · rintro ⟨rfl, h1, h2, h3, h4⟩
        by_cases hk : px = x0 + k
        · exact .inr ⟨rfl, hk, h3, by rwa [show px - x0 = k by omega] at h4⟩
        · exact .inl ⟨rfl, h1, by omega, h3, h4⟩
      · rintro (⟨rfl, h1, h2, h3, h4⟩ | ⟨rfl, rfl, h3, h4⟩)
        · exact ⟨rfl, h1, by omega, h3, h4⟩
        · exact ⟨rfl, by omega, by omega, h3, by simpa using h4⟩

/-- One sprite row inverts exactly the places its set bits light. -/
theorem drawRow_inverts (x0 y : Nat) (b : Byte) (d : Drawing) (hy : y ≤ 31) :
    Inverts (RowLights x0 y b 8) d (drawRow x0 y b d) := drawCols_inverts x0 y b d 8 hy

/-- The places that a sprite of `n` rows at `(x0, y0)` lights (R202 to R204). -/
def SpritePlaces (rowByte : Nat → Byte) (x0 y0 n px py : Nat) : Prop :=
  y0 ≤ py ∧ py < y0 + n ∧ py ≤ 31 ∧ x0 ≤ px ∧ px < x0 + 8 ∧ px ≤ 63 ∧ spriteBit (rowByte (py - y0)) (px - x0) = true

/-- Drawing a sprite inverts exactly the places it lights, and reports a collision when one of them was on. -/
theorem drawSprite_inverts (rowByte : Nat → Byte) (x0 y0 n : Nat) (d : Drawing) :
    Inverts (SpritePlaces rowByte x0 y0 n) d (drawSprite rowByte x0 y0 n d) := by
  induction n with
  | zero => exact Inverts.refl d fun px py h => by unfold SpritePlaces at h; omega
  | succ n ih =>
    unfold drawSprite at ih ⊢
    rw [List.range_succ, List.foldl_append]
    simp only [List.foldl_cons, List.foldl_nil]
    split
    next hr =>
      refine (ih.trans (drawRow_inverts x0 (y0 + n) (rowByte n) _ hr) fun px py h1 h2 => ?_).congr fun px py => ?_
      · unfold SpritePlaces at h1; unfold RowLights at h2; omega
      · unfold SpritePlaces RowLights
        constructor
        · rintro ⟨h1, h2, h3, h4, h5, h6, h7⟩
          by_cases hk : py = y0 + n
          · exact .inr ⟨hk, h4, h5, h6, by rwa [show py - y0 = n by omega] at h7⟩
          · exact .inl ⟨h1, by omega, h3, h4, h5, h6, h7⟩
        · rintro (⟨h1, h2, h3, h4, h5, h6, h7⟩ | ⟨rfl, h4, h5, h6, h7⟩)
          · exact ⟨h1, by omega, h3, h4, h5, h6, h7⟩
          · exact ⟨by omega, by omega, hr, h4, h5, h6, by simpa using h7⟩
    next hr =>
      refine ih.congr fun px py => ?_
      unfold SpritePlaces
      constructor
      · rintro ⟨h1, h2, h3, h⟩; exact ⟨h1, by omega, h3, h⟩
      · rintro ⟨h1, h2, h⟩; exact ⟨h1, by omega, h⟩

end Sys2Proof.Machine
end

