-- ==== Sys2Proof/Laws/Input.lean ====
section
/-! SUPPORT. What `setKey` and the key capture can do (R232, R237). -/

namespace Sys2Proof.Machine

/-- `KeyPressed(k)` changes `Captured` at most: the first press of a wait is kept (R237). -/
theorem State.keyPressed_eq (s : State) (k : Key) :
    s.keyPressed k = { s with captured := if s.mode ≠ .running ∧ s.captured = none then some k else s.captured } := by
  obtain ⟨v, i, pc, stack, dt, st, mem, fb, keyDown, mode, captured, _⟩ := s
  cases mode <;> cases captured <;> simp [State.keyPressed]

/-- `setKey(k, down)` for an index that exists: the flag of `k`, and `Captured` where a press is captured (R232). -/
theorem State.latchKey_eq (s : State) (k : Key) (down : Bool) :
    s.latchKey k down = { s with
      keyDown := s.keyDown.set k down,
      captured :=
        if down = true ∧ s.isDown k = false ∧ s.mode ≠ .running ∧ s.captured = none then some k else s.captured } := by
  unfold State.latchKey
  cases down
  · simp
  · by_cases h : s.isDown k = true
    · simp [h]
    · simp [h, State.keyPressed_eq]

theorem State.setKey_of_lt (s : State) (k : Key) (down : Bool) : s.setKey k.val down = s.latchKey k down := by
  simp [State.setKey, keyIndexOk, k.isLt]

theorem State.setKey_of_ge (s : State) {k : Nat} (hk : 16 ≤ k) (down : Bool) : s.setKey k down = s := by
  simp [State.setKey, keyIndexOk, Nat.not_lt.2 hk]

/-- `setKey` writes `KeyDown` and `Captured` and nothing else; it captures only in `AwaitingKey` (R232, R237). -/
theorem State.setKey_cases (s : State) (k : Nat) (down : Bool) :
    ∃ kd cap, s.setKey k down = { s with keyDown := kd, captured := cap } ∧
      (cap = s.captured ∨ s.mode ≠ .running) := by
  by_cases hk : k < 16
  · refine ⟨_, _, (s.setKey_of_lt ⟨k, hk⟩ down).trans (s.latchKey_eq ⟨k, hk⟩ down), ?_⟩
    split
    next h => exact .inr h.2.2.1
    next => exact .inl rfl
  · exact ⟨s.keyDown, s.captured, s.setKey_of_ge (Nat.not_lt.1 hk) down, .inl rfl⟩

/-- A flag after a write of a flag. -/
theorem isDown_set (s : State) (k : Key) (down : Bool) (j : Key) :
    ({ s with keyDown := s.keyDown.set k down } : State).isDown j = if j = k then down else s.isDown j := by
  simp only [State.isDown, Fin.getElem_fin, Vector.getElem_set, Fin.ext_iff]
  by_cases h : k.val = j.val
  · simp [h]
  · simp [h, Ne.symm h]

end Sys2Proof.Machine
end

