-- ==== Sys2Proof/Laws/Memory.lean ====
section
/-! SUPPORT. The laws of memory: a read after a write, and that every memory operation keeps the canonical form. -/

namespace Sys2Proof.Machine

/-! ### One cell -/

theorem cellAt_eraseCell (m : Memory) (a k : Nat) :
    cellAt (eraseCell m a) k = if k = a then Config.resetByte k else cellAt m k := by
  induction m with
  | nil => simp [eraseCell, cellAt]
  | cons c t ih =>
    simp only [eraseCell] at ih ⊢
    by_cases hc : c.1 = a
    · rw [List.filter_cons_of_neg (by simp [hc]), ih]
      by_cases hk : k = a
      · simp [hk]
      · simp [hk, cellAt, hc, Ne.symm hk]
    · rw [List.filter_cons_of_pos (by simp [hc])]
      simp only [cellAt, ih]
      by_cases hk : c.1 = k
      · simp [hk, hk ▸ hc]
      · simp [hk]

theorem cellAt_insertCell (m : Memory) (a : Nat) (b : Byte) (k : Nat) (hm : ∀ c ∈ m, c.1 ≠ a) :
    cellAt (insertCell m a b) k = if k = a then b else cellAt m k := by
  induction m with
  | nil => simp [insertCell, cellAt, eq_comm]
  | cons c t ih =>
    have ht := ih fun d hd => hm d (List.mem_cons_of_mem _ hd)
    have hc := hm c List.mem_cons_self
    unfold insertCell
    split
    · by_cases h : k = a
      · simp [cellAt, h]
      · simp [cellAt, h, Ne.symm h]
    · simp only [cellAt, ht]
      by_cases h : c.1 = k
      · simp [h, h ▸ hc]
      · simp [h]

theorem ne_of_mem_eraseCell {m : Memory} {a : Nat} {c : Host.Cell} (h : c ∈ eraseCell m a) : c ∈ m ∧ c.1 ≠ a := by
  simpa [eraseCell] using h

/-- A read after a write to the same address gives the byte written; every other address is left alone. -/
theorem cellAt_setCell (m : Memory) (a : Nat) (b : Byte) (k : Nat) :
    cellAt (setCell m a b) k = if k = a then b else cellAt m k := by
  unfold setCell
  split
  next h =>
    rw [cellAt_eraseCell]
    by_cases hk : k = a <;> simp [hk, h]
  next =>
    rw [cellAt_insertCell _ _ _ _ fun c hc => (ne_of_mem_eraseCell hc).2, cellAt_eraseCell]
    by_cases hk : k = a <;> simp [hk]

/-! ### The canonical form -/

theorem mem_insertCell {m : Memory} {a : Nat} {b : Byte} {c : Host.Cell} (h : c ∈ insertCell m a b) :
    c = (a, b) ∨ c ∈ m := by
  induction m with
  | nil => exact Or.inl (by simpa [insertCell] using h)
  | cons d t ih =>
    unfold insertCell at h
    split at h
    · simpa using h
    · rcases List.mem_cons.1 h with rfl | h
      · exact Or.inr List.mem_cons_self
      · exact (ih h).imp_right (List.mem_cons_of_mem _)

theorem mem_setCell {m : Memory} {a : Nat} {b : Byte} {c : Host.Cell} (h : c ∈ setCell m a b) :
    c = (a, b) ∨ c ∈ m := by
  unfold setCell at h
  split at h
  · exact Or.inr (ne_of_mem_eraseCell h).1
  · exact (mem_insertCell h).imp_right fun h => (ne_of_mem_eraseCell h).1

theorem eraseCell_wf {m : Memory} (h : m.wf) (a : Nat) : (eraseCell m a).wf :=
  ⟨h.1.filter _, fun c hc => h.2 c (ne_of_mem_eraseCell hc).1⟩

theorem insertCell_pairwise {m : Memory} {a : Nat} {b : Byte} (h : m.Pairwise (fun c d => c.1 < d.1))
    (ha : ∀ c ∈ m, c.1 ≠ a) : (insertCell m a b).Pairwise (fun c d => c.1 < d.1) := by
  induction m with
  | nil => simp [insertCell]
  | cons c t ih =>
    obtain ⟨hc, ht⟩ := List.pairwise_cons.1 h
    have hca := ha c List.mem_cons_self
    unfold insertCell
    split
    next hlt =>
      refine List.pairwise_cons.2 ⟨fun d hd => ?_, h⟩
      rcases List.mem_cons.1 hd with rfl | hd
      · exact hlt
      · exact hlt.trans (hc d hd)
    next hge =>
      refine List.pairwise_cons.2 ⟨fun d hd => ?_, ih ht fun d hd => ha d (List.mem_cons_of_mem _ hd)⟩
      rcases mem_insertCell hd with rfl | hd
      · show c.1 < a
        omega
      · exact hc d hd

/-- A write keeps the canonical form. -/
theorem setCell_wf {m : Memory} (h : m.wf) (a : Nat) (b : Byte) : (setCell m a b).wf := by
  unfold setCell
  split
  · exact eraseCell_wf h a
  next hb =>
    have he := eraseCell_wf h a
    refine ⟨insertCell_pairwise he.1 fun c hc => (ne_of_mem_eraseCell hc).2, fun c hc => ?_⟩
    rcases mem_insertCell hc with rfl | hc
    · exact hb
    · exact he.2 c hc

theorem copyBytes_wf {m : Memory} (h : m.wf) (a : Nat) (bytes : List Byte) : (copyBytes m a bytes).wf := by
  induction bytes generalizing m a with
  | nil => exact h
  | cons b rest ih => exact ih (setCell_wf h a b) (a + 1)

/-- The reset memory has the canonical form. -/
theorem reset_mem_wf : State.reset.mem.wf := by decide

/-! ### `MemRead` and `MemWrite` (R54, R55) -/

theorem State.memRead_congr {s t : State} (h : t.mem = s.mem) (a : Nat) : t.memRead a = s.memRead a := by
  simp [State.memRead, h]

theorem State.memRead_le (s : State) {a : Nat} (h : a ≤ 0xFFF) : s.memRead a = cellAt s.mem a := by
  simp [State.memRead, Config.memTop, h]

theorem State.memRead_gt (s : State) {a : Nat} (h : ¬ a ≤ 0xFFF) : s.memRead a = cellAt s.mem 0xFFF := by
  simp [State.memRead, Config.memTop, h]

/-- The addresses that a program can write: those that exist, less the font area (R55, R56). -/
theorem writable_iff (a : Nat) : writable a = true ↔ a ≤ 0xFFF ∧ ¬ (0x050 ≤ a ∧ a ≤ 0x09F) := by
  have hl : Config.fontData.length = 80 := rfl
  have ht : Config.memTop = 4095 := rfl
  have hb : Config.fontBase = 80 := rfl
  simp [writable, inFont, hl, ht, hb, Config.fontWriteProtected]
  omega

theorem cellAt_memWrite (s : State) (a : Nat) (b : Byte) (k : Nat) :
    cellAt (s.memWrite a b).mem k = if k = a ∧ writable a = true then b else cellAt s.mem k := by
  rw [State.memWrite_mem]
  split
  next h => simp [cellAt_setCell, h]
  next h => simp [h]

/-- A byte of memory after `MemWrite`: the byte written where the write is not dropped, else the byte before it. -/
theorem State.memRead_memWrite (s : State) (a : Nat) (b : Byte) (k : Nat) (hk : k ≤ 0xFFF) :
    (s.memWrite a b).memRead k = if k = a ∧ writable a = true then b else s.memRead k := by
  rw [State.memRead_le _ hk, State.memRead_le _ hk, cellAt_memWrite]

theorem State.memWrite_wf {s : State} (h : s.mem.wf) (a : Nat) (b : Byte) : (s.memWrite a b).mem.wf := by
  rw [State.memWrite_mem]
  split
  · exact setCell_wf h a b
  · exact h

theorem State.memWrite_writable {s : State} (h : ∀ c ∈ s.mem, writable c.1 = true) (a : Nat) (b : Byte) :
    ∀ c ∈ (s.memWrite a b).mem, writable c.1 = true := by
  rw [State.memWrite_mem]
  split
  next ha =>
    intro c hc
    rcases mem_setCell hc with rfl | hc
    · exact ha
    · exact h c hc
  next => exact h

/-- The bytes that `loadProgram` copies: byte `k` of the program at `a + k`, every other address as before (R305). -/
theorem cellAt_copyBytes (m : Memory) (a : Nat) (bytes : List Byte) (k : Nat) :
    cellAt (copyBytes m a bytes) k =
      if a ≤ k ∧ k < a + bytes.length then bytes.getD (k - a) 0#8 else cellAt m k := by
  induction bytes generalizing m a with
  | nil => simp [copyBytes]
  | cons b rest ih =>
    rw [copyBytes, ih, cellAt_setCell]
    by_cases h : k = a
    · subst h; simp
    · by_cases h2 : a + 1 ≤ k ∧ k < a + 1 + rest.length
      · rw [if_pos h2, if_pos (by simp; omega), show k - a = (k - (a + 1)) + 1 by omega, List.getD_cons_succ]
      · rw [if_neg h2, if_neg h, if_neg (by simp; omega)]

theorem mem_copyBytes {m : Memory} {a : Nat} {bytes : List Byte} {c : Host.Cell} (h : c ∈ copyBytes m a bytes) :
    c ∈ m ∨ (a ≤ c.1 ∧ c.1 < a + bytes.length) := by
  induction bytes generalizing m a with
  | nil => exact Or.inl h
  | cons b rest ih =>
    rcases ih h with h | ⟨h1, h2⟩
    · rcases mem_setCell h with rfl | h
      · exact Or.inr ⟨le_rfl, by simp⟩
      · exact Or.inl h
    · exact Or.inr ⟨by omega, by simp; omega⟩

end Sys2Proof.Machine
end

