-- ==== Sys2Proof/Laws/PerInstr.lean ====
section
/-! SUPPORT. The per-instruction family `EncodeRow`: the row of spec/opcode_table.json that an instruction stands for is in
the table, and the instruction's word matches that row's mask and pattern (R113). -/

namespace Sys2Proof.Laws

/-- The instruction's row is a row of the table, and its word is one of that row's words (R113). -/
def EncodeRow.Statement (i : Instr) : Prop := rowOf i ∈ opcodeTable ∧ rowMatches (encode i) (rowOf i) = true

/-! ### A word of each layout under each mask -/

theorem maskF000_encodeXNN (p : BitVec 4) (x : Reg) (nn : Byte) :
    encodeXNN p x nn &&& 0xF000#16 = encodeXNN p 0 0#8 := by
  rw [maskF000 _ _ (by revert p; decide) (by revert p; decide) (by revert p; decide)]
  simp

theorem maskF000_encodeNNN (p : BitVec 4) (nnn : BitVec 12) :
    encodeNNN p nnn &&& 0xF000#16 = encodeXNN p 0 0#8 := by
  rw [maskF000 _ _ (by revert p; decide) (by revert p; decide) (by revert p; decide)]
  simp

theorem maskF000_encodeXYN (p : BitVec 4) (x y : Reg) (n : BitVec 4) :
    encodeXYN p x y n &&& 0xF000#16 = encodeXNN p 0 0#8 := by
  rw [encodeXYN_eq, maskF000_encodeXNN]

theorem maskF00F_encodeXYN (p : BitVec 4) (x y : Reg) (n : BitVec 4) :
    encodeXYN p x y n &&& 0xF00F#16 = encodeXYN p 0 0 n := by
  rw [maskF00F _ _ (by revert p n; decide) (by revert p n; decide)]
  simp

theorem maskF0FF_encodeXNN (p : BitVec 4) (x : Reg) (nn : Byte) (h : nibbleBits 8 (encodeXNN p 0 nn) = 0#4) :
    encodeXNN p x nn &&& 0xF0FF#16 = encodeXNN p 0 nn := by
  rw [maskF0FF _ _ h]
  simp

/-! ### One lemma per constructor -/

theorem EncodeRow.cls : EncodeRow.Statement .cls :=
  ⟨by decide, by decide⟩

theorem EncodeRow.ret : EncodeRow.Statement .ret :=
  ⟨by decide, by decide⟩

theorem EncodeRow.jp (nnn : BitVec 12) : EncodeRow.Statement (.jp nnn) :=
  ⟨by simp [opcodeTable, sampleInstrs, rowOf], beq_iff_eq.2 (maskF000_encodeNNN _ nnn)⟩

theorem EncodeRow.call (nnn : BitVec 12) : EncodeRow.Statement (.call nnn) :=
  ⟨by simp [opcodeTable, sampleInstrs, rowOf], beq_iff_eq.2 (maskF000_encodeNNN _ nnn)⟩

theorem EncodeRow.seVB (x : Reg) (nn : Byte) : EncodeRow.Statement (.seVB x nn) :=
  ⟨by simp [opcodeTable, sampleInstrs, rowOf], beq_iff_eq.2 (maskF000_encodeXNN _ x nn)⟩

theorem EncodeRow.sneVB (x : Reg) (nn : Byte) : EncodeRow.Statement (.sneVB x nn) :=
  ⟨by simp [opcodeTable, sampleInstrs, rowOf], beq_iff_eq.2 (maskF000_encodeXNN _ x nn)⟩

theorem EncodeRow.seVV (x y : Reg) : EncodeRow.Statement (.seVV x y) :=
  ⟨by simp [opcodeTable, sampleInstrs, rowOf], beq_iff_eq.2 (maskF00F_encodeXYN _ x y _)⟩

theorem EncodeRow.ldVB (x : Reg) (nn : Byte) : EncodeRow.Statement (.ldVB x nn) :=
  ⟨by simp [opcodeTable, sampleInstrs, rowOf], beq_iff_eq.2 (maskF000_encodeXNN _ x nn)⟩

theorem EncodeRow.addVB (x : Reg) (nn : Byte) : EncodeRow.Statement (.addVB x nn) :=
  ⟨by simp [opcodeTable, sampleInstrs, rowOf], beq_iff_eq.2 (maskF000_encodeXNN _ x nn)⟩

theorem EncodeRow.ldVV (x y : Reg) : EncodeRow.Statement (.ldVV x y) :=
  ⟨by simp [opcodeTable, sampleInstrs, rowOf], beq_iff_eq.2 (maskF00F_encodeXYN _ x y _)⟩

theorem EncodeRow.orVV (x y : Reg) : EncodeRow.Statement (.orVV x y) :=
  ⟨by simp [opcodeTable, sampleInstrs, rowOf], beq_iff_eq.2 (maskF00F_encodeXYN _ x y _)⟩

theorem EncodeRow.andVV (x y : Reg) : EncodeRow.Statement (.andVV x y) :=
  ⟨by simp [opcodeTable, sampleInstrs, rowOf], beq_iff_eq.2 (maskF00F_encodeXYN _ x y _)⟩

theorem EncodeRow.xorVV (x y : Reg) : EncodeRow.Statement (.xorVV x y) :=
  ⟨by simp [opcodeTable, sampleInstrs, rowOf], beq_iff_eq.2 (maskF00F_encodeXYN _ x y _)⟩

theorem EncodeRow.addVV (x y : Reg) : EncodeRow.Statement (.addVV x y) :=
  ⟨by simp [opcodeTable, sampleInstrs, rowOf], beq_iff_eq.2 (maskF00F_encodeXYN _ x y _)⟩

theorem EncodeRow.subVV (x y : Reg) : EncodeRow.Statement (.subVV x y) :=
  ⟨by simp [opcodeTable, sampleInstrs, rowOf], beq_iff_eq.2 (maskF00F_encodeXYN _ x y _)⟩

theorem EncodeRow.shrV (x y : Reg) : EncodeRow.Statement (.shrV x y) :=
  ⟨by simp [opcodeTable, sampleInstrs, rowOf], beq_iff_eq.2 (maskF00F_encodeXYN _ x y _)⟩

theorem EncodeRow.subnVV (x y : Reg) : EncodeRow.Statement (.subnVV x y) :=
  ⟨by simp [opcodeTable, sampleInstrs, rowOf], beq_iff_eq.2 (maskF00F_encodeXYN _ x y _)⟩

theorem EncodeRow.shlV (x y : Reg) : EncodeRow.Statement (.shlV x y) :=
  ⟨by simp [opcodeTable, sampleInstrs, rowOf], beq_iff_eq.2 (maskF00F_encodeXYN _ x y _)⟩

theorem EncodeRow.sneVV (x y : Reg) : EncodeRow.Statement (.sneVV x y) :=
  ⟨by simp [opcodeTable, sampleInstrs, rowOf], beq_iff_eq.2 (maskF00F_encodeXYN _ x y _)⟩

theorem EncodeRow.ldI (nnn : BitVec 12) : EncodeRow.Statement (.ldI nnn) :=
  ⟨by simp [opcodeTable, sampleInstrs, rowOf], beq_iff_eq.2 (maskF000_encodeNNN _ nnn)⟩

theorem EncodeRow.jpV0 (nnn : BitVec 12) : EncodeRow.Statement (.jpV0 nnn) :=
  ⟨by simp [opcodeTable, sampleInstrs, rowOf], beq_iff_eq.2 (maskF000_encodeNNN _ nnn)⟩

theorem EncodeRow.rnd (x : Reg) (nn : Byte) : EncodeRow.Statement (.rnd x nn) :=
  ⟨by simp [opcodeTable, sampleInstrs, rowOf], beq_iff_eq.2 (maskF000_encodeXNN _ x nn)⟩

theorem EncodeRow.drw (x y : Reg) (n : BitVec 4) : EncodeRow.Statement (.drw x y n) :=
  ⟨by simp [opcodeTable, sampleInstrs, rowOf], beq_iff_eq.2 (maskF000_encodeXYN _ x y n)⟩

theorem EncodeRow.skp (x : Reg) : EncodeRow.Statement (.skp x) :=
  ⟨by simp [opcodeTable, sampleInstrs, rowOf], beq_iff_eq.2 (maskF0FF_encodeXNN _ x _ (by decide))⟩

theorem EncodeRow.sknp (x : Reg) : EncodeRow.Statement (.sknp x) :=
  ⟨by simp [opcodeTable, sampleInstrs, rowOf], beq_iff_eq.2 (maskF0FF_encodeXNN _ x _ (by decide))⟩

theorem EncodeRow.ldVDT (x : Reg) : EncodeRow.Statement (.ldVDT x) :=
  ⟨by simp [opcodeTable, sampleInstrs, rowOf], beq_iff_eq.2 (maskF0FF_encodeXNN _ x _ (by decide))⟩

theorem EncodeRow.ldVK (x : Reg) : EncodeRow.Statement (.ldVK x) :=
  ⟨by simp [opcodeTable, sampleInstrs, rowOf], beq_iff_eq.2 (maskF0FF_encodeXNN _ x _ (by decide))⟩

theorem EncodeRow.ldDTV (x : Reg) : EncodeRow.Statement (.ldDTV x) :=
  ⟨by simp [opcodeTable, sampleInstrs, rowOf], beq_iff_eq.2 (maskF0FF_encodeXNN _ x _ (by decide))⟩

theorem EncodeRow.ldSTV (x : Reg) : EncodeRow.Statement (.ldSTV x) :=
  ⟨by simp [opcodeTable, sampleInstrs, rowOf], beq_iff_eq.2 (maskF0FF_encodeXNN _ x _ (by decide))⟩

theorem EncodeRow.addIV (x : Reg) : EncodeRow.Statement (.addIV x) :=
  ⟨by simp [opcodeTable, sampleInstrs, rowOf], beq_iff_eq.2 (maskF0FF_encodeXNN _ x _ (by decide))⟩

theorem EncodeRow.ldFV (x : Reg) : EncodeRow.Statement (.ldFV x) :=
  ⟨by simp [opcodeTable, sampleInstrs, rowOf], beq_iff_eq.2 (maskF0FF_encodeXNN _ x _ (by decide))⟩

theorem EncodeRow.ldBV (x : Reg) : EncodeRow.Statement (.ldBV x) :=
  ⟨by simp [opcodeTable, sampleInstrs, rowOf], beq_iff_eq.2 (maskF0FF_encodeXNN _ x _ (by decide))⟩

theorem EncodeRow.ldMIV (x : Reg) : EncodeRow.Statement (.ldMIV x) :=
  ⟨by simp [opcodeTable, sampleInstrs, rowOf], beq_iff_eq.2 (maskF0FF_encodeXNN _ x _ (by decide))⟩

theorem EncodeRow.ldVMI (x : Reg) : EncodeRow.Statement (.ldVMI x) :=
  ⟨by simp [opcodeTable, sampleInstrs, rowOf], beq_iff_eq.2 (maskF0FF_encodeXNN _ x _ (by decide))⟩

end Sys2Proof.Laws
end

