-- ==== Sys2Proof/Laws/Scheduler.lean ====
section
/-! SUPPORT. What the scheduler's operations can do: each case of one action, said once (60_exceptions.md R264 to R275). -/

namespace Sys2Proof.Machine

/-- Two actions in a row answer a next state exactly when both do. -/
theorem andThen_next {o : Host.Outcome State Fault Refusal} {f : State → Host.Outcome State Fault Refusal} {t : State} :
    andThen o f = .next t ↔ ∃ u, o = .next u ∧ f u = .next t := by
  cases o <;> simp [andThen]

/-- Two next states are one state. -/
theorem next_inj {s t : State} : (Host.Outcome.next s : Host.Outcome State Fault Refusal) = .next t ↔ s = t :=
  ⟨Host.Outcome.next.inj, congrArg _⟩

/-- A run of key events writes `KeyDown` and `Captured` and nothing else; it captures only in `AwaitingKey`. -/
theorem State.applyKeys_cases (s : State) (keys : List KeyEvent) :
    ∃ kd cap, s.applyKeys keys = { s with keyDown := kd, captured := cap } ∧
      (cap = s.captured ∨ s.mode ≠ .running) := by
  induction keys generalizing s with
  | nil => exact ⟨s.keyDown, s.captured, rfl, .inl rfl⟩
  | cons e rest ih =>
    obtain ⟨kd, cap, h, hc⟩ := s.setKey_cases e.key e.down
    obtain ⟨kd', cap', h', hc'⟩ := ih (s.setKey e.key e.down)
    refine ⟨kd', cap', ?_, ?_⟩
    · show (s.setKey e.key e.down).applyKeys rest = _
      rw [h', h]
    · rw [h] at hc'
      rcases hc' with rfl | hm
      · exact hc
      · exact .inr hm

/-- An action is due when its time has come (R265, R43). -/
theorem isDue_iff (now t0 hz : Rat) (done : Nat) : isDue now t0 hz done = true ↔ (now - t0) * hz ≥ (done : Rat) + 1 := by
  simp [isDue]

/-- One instruction step if due: nothing, or the step with its count one higher (R265, R267). -/
theorem State.stepIfDue_cases {s t : State} {now : Rat} (h : s.stepIfDue now = .next t) :
    t = s ∨ ∃ t0 u, s.t0 = some t0 ∧ s.loaded = true ∧ isDue now t0 s.instrHz.hz s.instrDone = true ∧
      s.instrStep = .next u ∧ t = { u with instrDone := u.instrDone + 1 } := by
  unfold State.stepIfDue at h
  split at h
  · exact .inl (next_inj.1 h).symm
  next t0 ht0 =>
    split at h
    next hd =>
      simp only [Bool.and_eq_true] at hd
      obtain ⟨u, hu, ht⟩ := andThen_next.1 h
      exact .inr ⟨t0, u, ht0, hd.1, hd.2, hu, (next_inj.1 ht).symm⟩
    next => exact .inl (next_inj.1 h).symm

/-- One timer tick if due: nothing, or the tick with its count one higher (R265, R267). -/
theorem State.tickIfDue_cases (s : State) (now : Rat) :
    s.tickIfDue now = s ∨ ∃ t0, s.t0 = some t0 ∧ isDue now t0 (Config.timerHz : Rat) s.timerDone = true ∧
      s.tickIfDue now = { s.timerTick with timerDone := s.timerDone + 1 } := by
  unfold State.tickIfDue
  split
  · exact .inl rfl
  next t0 ht0 =>
    split
    next hd => exact .inr ⟨t0, ht0, hd, rfl⟩
    next => exact .inl rfl

/-- `loadProgram`: refused and nothing changed, a failed load, or the bytes copied (R305, R306). -/
theorem State.loadProgram_cases (s : State) (bytes : List Byte) :
    (s.t0 ≠ none ∧ s.loadProgram bytes = s) ∨
    (s.t0 = none ∧ bytes.length > 0xE00 ∧ s.loadProgram bytes = { s with loadResult := some .tooLarge }) ∨
    (s.t0 = none ∧ bytes.length ≤ 0xE00 ∧ s.loadProgram bytes =
      { s with mem := copyBytes s.mem 0x200 bytes, loaded := true, loadResult := some .ok }) := by
  unfold State.loadProgram State.started
  cases ht : s.t0 with
  | some t0 => exact .inl ⟨by simp, by simp⟩
  | none =>
    by_cases hb : bytes.length ≤ 0xE00
    · exact .inr (.inr ⟨rfl, hb, by simp [programFits, Config.progMax, Config.progBase, hb]⟩)
    · exact .inr (.inl ⟨rfl, by omega, by simp [programFits, Config.progMax, hb]⟩)

/-- Starting the scheduler: done once, after a load, or nothing (R264, R304). -/
theorem State.startScheduler_cases (s : State) (t0 : Rat) :
    (s.loaded = true ∧ s.t0 = none ∧ s.startScheduler t0 = { s with t0 := some t0, instrDone := 0, timerDone := 0 }) ∨
    (¬ (s.loaded = true ∧ s.t0 = none) ∧ s.startScheduler t0 = s) := by
  unfold State.startScheduler State.started
  cases hl : s.loaded <;> cases ht : s.t0 <;> simp

/-- What one instruction step can be: none while no program is loaded, the key-wait check, an instruction, or the no-op of an
unmapped word (R110, R113 to R115, R308). -/
theorem State.instrStep_cases (s : State) :
    (s.loaded = false ∧ s.instrStep = .next s) ∨
    (s.loaded = true ∧ ∃ x, s.mode = .awaitingKey x ∧ s.instrStep = .next (s.keyWaitStep x)) ∨
    (s.loaded = true ∧ s.mode = .running ∧ ∃ i, decodeWord s.fetchWord = .ok i ∧ s.instrStep = exec i s) ∨
    (s.loaded = true ∧ s.mode = .running ∧ decodeWord s.fetchWord = .error (.unmapped s.fetchWord) ∧
      s.instrStep = .next (s.invalidOpcode s.fetchWord)) := by
  unfold State.instrStep
  cases hl : s.loaded with
  | false => exact .inl ⟨rfl, by simp⟩
  | true =>
    refine .inr ?_
    cases hm : s.mode with
    | awaitingKey x => exact .inl ⟨rfl, x, rfl, by simp⟩
    | running =>
      refine .inr ?_
      cases hd : decodeWord s.fetchWord with
      | ok i => exact .inl ⟨rfl, rfl, i, rfl, by simp [State.executeWord, hd]⟩
      | error e =>
        have he : e = .unmapped s.fetchWord := by
          unfold decodeWord at hd
          split at hd <;> simp_all
        exact .inr ⟨rfl, rfl, by rw [he], by simp [State.executeWord, hd]⟩

/-- One step of the machine: nothing after termination, the oldest pending call of the host, or an instruction tick. -/
theorem step_cases (s : State) :
    (s.terminated = true ∧ step s = .next s) ∨
    (s.terminated = false ∧ ∃ c rest, s.calls = c :: rest ∧ step s = ({ s with calls := rest } : State).serve c) ∨
    (s.terminated = false ∧ s.calls = [] ∧ step s = s.instrTick) := by
  unfold step State.nextAction
  cases ht : s.terminated with
  | true => exact .inl ⟨rfl, by simp⟩
  | false =>
    cases hc : s.calls with
    | nil => exact .inr (.inr ⟨rfl, rfl, by simp⟩)
    | cons c rest => exact .inr (.inl ⟨rfl, c, rest, rfl, by simp⟩)

/-- A pending call of the host is what the next step serves. -/
theorem step_of_call {s : State} {c : HostCall} {rest : List HostCall} (ht : s.terminated = false) (hc : s.calls = c :: rest) :
    step s = ({ s with calls := rest } : State).serve c := by
  simp [step, State.nextAction, ht, hc]

/-- With no call pending, in a started scheduler, a step of the machine is an instruction step. -/
theorem step_of_ticking {s : State} (h : s.Ticking) : step s = s.instrStep := by
  obtain ⟨ht, hc, h0, _⟩ := h
  cases h0' : s.t0 with
  | none => exact absurd h0' h0
  | some t0 => simp [step, State.nextAction, State.instrTick, State.started, ht, hc, h0']

/-- With no call pending, before the scheduler has started, a step of the machine changes nothing (R264, R304). -/
theorem step_of_not_started {s : State} (h0 : s.t0 = none) (hc : s.calls = []) : step s = .next s := by
  simp [step, State.nextAction, State.instrTick, State.started, h0, hc]

/-- The key-wait check of a step in `AwaitingKey(x)`: the key's index into `V[x]`, or nothing (R238). -/
theorem State.keyWaitStep_none {s : State} (h : s.captured = none) (x : Reg) : s.keyWaitStep x = s := by
  simp [State.keyWaitStep, h]

theorem State.keyWaitStep_some {s : State} {k : Key} (h : s.captured = some k) (x : Reg) :
    s.keyWaitStep x =
      ({ s.setV x (BitVec.ofNat 8 k.val) with mode := .running, captured := none } : State).advance := by
  simp [State.keyWaitStep, h]

/-- The decrement of a timer, as a number (R223). -/
theorem countDown_toNat (t : Byte) : (countDown t).toNat = t.toNat - 1 := by
  unfold countDown
  have := t.isLt
  split
  · rw [BitVec.toNat_sub]
    simp
    omega
  · omega

/-! ### Fetch (R111) -/

/-- The fetched word as a number: the byte at `PC` is its high byte (R111, R60). -/
theorem State.fetchWord_toNat (s : State) :
    s.fetchWord.toNat = (s.memRead s.pc.toNat).toNat * 256 + (s.memRead (s.pc.toNat + 1)).toNat := by
  have h : s.fetchWord.toNat =
      (s.memRead s.pc.toNat).toNat <<< 8 ||| (s.memRead (s.pc.toNat + 1)).toNat := BitVec.toNat_append _ _
  rw [h, ← Nat.shiftLeft_add_eq_or_of_lt (s.memRead (s.pc.toNat + 1)).isLt, Nat.shiftLeft_eq]

theorem State.fetchWord_congr {s t : State} (hm : t.mem = s.mem) (hp : t.pc = s.pc) : t.fetchWord = s.fetchWord := by
  simp [State.fetchWord, State.fetchAt, State.memRead, hm, hp]

end Sys2Proof.Machine
end

