-- ==== Sys2Proof/Laws/Transfer.lean ====
section
/-! SUPPORT. What the loops of FX55 and FX65 do (R184, R185). -/

namespace Sys2Proof.Machine

/-- A store changes memory and nothing else. -/
theorem State.storeReg_eq (s : State) (r : Reg) : ∃ m, s.storeReg r = { s with mem := m } := by
  unfold State.storeReg
  split
  · exact ⟨(s.memWrite (s.dataAddress r.val) (s.getV r)).mem, by unfold State.memWrite; split <;> rfl⟩
  · exact ⟨s.mem, rfl⟩

theorem State.storeReg_wf {s : State} (h : s.mem.wf) (r : Reg) : (s.storeReg r).mem.wf := by
  unfold State.storeReg
  split
  · exact State.memWrite_wf h _ _
  · exact h

theorem State.storeReg_writable {s : State} (h : ∀ c ∈ s.mem, writable c.1 = true) (r : Reg) :
    ∀ c ∈ (s.storeReg r).mem, writable c.1 = true := by
  unfold State.storeReg
  split
  · exact State.memWrite_writable h _ _
  · exact h

/-- A load changes the general registers and nothing else. -/
theorem State.loadReg_eq (s : State) (r : Reg) : ∃ v, s.loadReg r = { s with v := v } := by
  unfold State.loadReg
  split
  · exact ⟨_, rfl⟩
  · exact ⟨s.v, rfl⟩

theorem State.foldl_storeReg_eq (s : State) (rs : List Reg) : ∃ m, rs.foldl State.storeReg s = { s with mem := m } := by
  induction rs generalizing s with
  | nil => exact ⟨s.mem, rfl⟩
  | cons r rest ih =>
    obtain ⟨m, hm⟩ := s.storeReg_eq r
    obtain ⟨m', hm'⟩ := ih (s.storeReg r)
    exact ⟨m', by rw [List.foldl_cons, hm', hm]⟩

theorem State.foldl_storeReg_wf {s : State} (h : s.mem.wf) (rs : List Reg) : (rs.foldl State.storeReg s).mem.wf := by
  induction rs generalizing s with
  | nil => exact h
  | cons r rest ih => exact ih (State.storeReg_wf h r)

theorem State.foldl_storeReg_writable {s : State} (h : ∀ c ∈ s.mem, writable c.1 = true) (rs : List Reg) :
    ∀ c ∈ (rs.foldl State.storeReg s).mem, writable c.1 = true := by
  induction rs generalizing s with
  | nil => exact h
  | cons r rest ih => exact ih (State.storeReg_writable h r)

theorem State.foldl_loadReg_eq (s : State) (rs : List Reg) : ∃ v, rs.foldl State.loadReg s = { s with v := v } := by
  induction rs generalizing s with
  | nil => exact ⟨s.v, rfl⟩
  | cons r rest ih =>
    obtain ⟨v, hv⟩ := s.loadReg_eq r
    obtain ⟨v', hv'⟩ := ih (s.loadReg r)
    exact ⟨v', by rw [List.foldl_cons, hv', hv]⟩

/-- A byte of memory after the stores of distinct registers: `V[r]` at `I + r` where that write is not dropped, every other
byte as before (R184). -/
theorem State.cellAt_foldl_storeReg (s : State) (rs : List Reg) (hn : rs.Nodup) (k : Nat) :
    (∀ r ∈ rs, k = s.i.toNat + r.val → writable k = true →
      cellAt (rs.foldl State.storeReg s).mem k = s.getV r) ∧
    ((writable k = false ∨ ∀ r ∈ rs, k ≠ s.i.toNat + r.val) →
      cellAt (rs.foldl State.storeReg s).mem k = cellAt s.mem k) := by
  induction rs generalizing s with
  | nil => simp
  | cons r rest ih =>
    obtain ⟨hr, hrest⟩ := List.nodup_cons.1 hn
    have hcell : cellAt (s.storeReg r).mem k =
        if k = s.i.toNat + r.val ∧ writable k = true then s.getV r else cellAt s.mem k := by
      unfold State.storeReg State.dataAddress
      split
      · rw [cellAt_memWrite]
        by_cases hk : k = s.i.toNat + r.val <;> simp [hk]
      next hle =>
        rw [if_neg]
        rintro ⟨rfl, hw⟩
        exact hle ((writable_iff _).1 hw).1
    obtain ⟨m, hm⟩ := s.storeReg_eq r
    have hi : (s.storeReg r).i = s.i := by rw [hm]
    have hv : ∀ q, (s.storeReg r).getV q = s.getV q := fun q => State.getV_congr (by rw [hm]) q
    obtain ⟨ih1, ih2⟩ := ih (s.storeReg r) hrest
    rw [hi] at ih1 ih2
    simp only [List.foldl_cons]
    constructor
    · intro q hq hk hw
      rcases List.mem_cons.1 hq with rfl | hq
      · rw [ih2 (.inr fun q' hq' h => hr (by
          have : q = q' := Fin.ext (by omega)
          exact this ▸ hq')), hcell, if_pos ⟨hk, hw⟩]
      · rw [ih1 q hq hk hw, hv]
    · intro h
      rw [ih2 (h.imp_right fun h q hq => h q (List.mem_cons_of_mem _ hq)), hcell, if_neg]
      rintro ⟨hk, hw⟩
      rcases h with h | h
      · simp [h] at hw
      · exact h r List.mem_cons_self hk

/-- A register after the loads of a list of registers: the byte at `I + r` where that address exists, every other register
as before (R185). -/
theorem State.getV_foldl_loadReg (s : State) (rs : List Reg) (q : Reg) :
    (rs.foldl State.loadReg s).getV q =
      if q ∈ rs ∧ s.i.toNat + q.val ≤ 0xFFF then cellAt s.mem (s.i.toNat + q.val) else s.getV q := by
  induction rs generalizing s with
  | nil => simp
  | cons r rest ih =>
    obtain ⟨v, hv⟩ := s.loadReg_eq r
    have hi : (s.loadReg r).i = s.i := by rw [hv]
    have hm : (s.loadReg r).mem = s.mem := by rw [hv]
    rw [List.foldl_cons, ih, hi, hm]
    have hq : (s.loadReg r).getV q =
        if q = r ∧ s.i.toNat + r.val ≤ 0xFFF then cellAt s.mem (s.i.toNat + r.val) else s.getV q := by
      unfold State.loadReg State.dataAddress Config.memTop
      split
      next h => rw [State.getV_setV]; simp [h]
      next h => simp [h]
    rw [hq]
    by_cases h1 : q ∈ rest <;> by_cases h2 : q = r <;> by_cases h3 : s.i.toNat + q.val ≤ 0xFFF <;> simp_all

end Sys2Proof.Machine
end

