-- ==== Sys2Proof/Tests/Slice0.lean ====
section
/-! SUPPORT. Tests. Words are written out from the encodings of 30_encoding.md, and every expected value is from a vector of
spec/95_test_vectors.md (E1 to K11 and S1 to R5, named in the docstrings) or computed by hand from the rule it names. The last
part shows, for every statement with hypotheses or with several cases, values that meet them. -/

namespace Sys2Proof.Tests
open Sys2Proof.Machine

/-! ### Helpers -/

/-- A machine after a load and the start of the scheduler at time 0, at address 0x200 (R304). -/
def idle : State := { State.reset with loaded := true, t0 := some 0 }

/-- The state a step answers; the state before it where it answers none. -/
def next (o : Host.Outcome State Fault Refusal) (s : State) : State :=
  match o with
  | .next t => t
  | .fault _ => s
  | .refused _ => s

/-- The state after one step of the machine that fetches the word `w`. -/
def after (s : State) (w : Nat) : State := next (step (s.withFetchWord 16 w)) s

/-- Registers set from a list of indices and values. -/
def regs (s : State) (l : List (Reg × Byte)) : State := l.foldl (fun t p => t.setV p.1 p.2) s

/-- Bytes of memory set from a list of addresses and values. -/
def bytes (s : State) (l : List (Nat × Byte)) : State := l.foldl (fun t p => t.memWrite p.1 p.2) s

/-- The pixels that are on among the places listed. -/
def lit (s : State) (l : List (Nat × Nat)) : List (Nat × Nat) := l.filter (fun p => pixelAt s.fb p.1 p.2)

/-- Every place of one row of the display. -/
def row (y : Nat) : List (Nat × Nat) := (List.range 64).map (fun x => (x, y))

/-! ### WellFormed: ill-formed terms that each check refuses -/

/-- T2, and the word 0x0000 (R93). -/
theorem test_wellformed_group0 : wordMapped 0x01E0#16 = false ∧ wordMapped 0x0000#16 = false := by decide

/-- T4 and T6. -/
theorem test_wellformed_group5_group9 : wordMapped 0x5121#16 = false ∧ wordMapped 0x9121#16 = false := by decide

/-- T7 and T8. -/
theorem test_wellformed_group8 : wordMapped 0x8008#16 = false ∧ wordMapped 0x800F#16 = false := by decide

/-- T9. -/
theorem test_wellformed_groupE : wordMapped 0xE09F#16 = false := by decide

/-- T10 and T11. -/
theorem test_wellformed_groupF : wordMapped 0xF000#16 = false ∧ wordMapped 0xF0FF#16 = false := by decide

/-- K10: index 16 is refused, 15 is not. -/
theorem test_wellformed_key : keyIndexOk 16 = false ∧ keyIndexOk 15 = true := by decide

/-- R2 and R3: 0xE01 bytes are refused, 0xE00 are not. -/
theorem test_wellformed_program :
    programFits (List.replicate 0xE01 0#8) = false ∧ programFits (List.replicate 0xE00 0#8) = true := by
  unfold programFits
  rw [List.length_replicate, List.length_replicate]
  decide

/-! ### Decoding: every constructor, from a word written out from R97's encoding of it -/

theorem test_decode_group0 :
    decodeWord 0b0000000011100000#16 = .ok .cls ∧ decodeWord 0b0000000011101110#16 = .ok .ret ∧
    decodeWord 0b0000000111100000#16 = .error (.unmapped 0x01E0#16) := by decide

theorem test_decode_flow :
    decodeWord 0b0001001000110100#16 = .ok (.jp 0x234#12) ∧ decodeWord 0b0010001100000000#16 = .ok (.call 0x300#12) ∧
    decodeWord 0b1011111111111111#16 = .ok (.jpV0 0xFFF#12) := by decide

theorem test_decode_skips :
    decodeWord 0b0011001101000010#16 = .ok (.seVB 3 0x42#8) ∧ decodeWord 0b0100001101000010#16 = .ok (.sneVB 3 0x42#8) ∧
    decodeWord 0b0101000100100000#16 = .ok (.seVV 1 2) ∧ decodeWord 0b1001000100100000#16 = .ok (.sneVV 1 2) := by decide

theorem test_decode_immediates :
    decodeWord 0b0110101011111111#16 = .ok (.ldVB 10 0xFF#8) ∧ decodeWord 0b0111001000000001#16 = .ok (.addVB 2 1#8) ∧
    decodeWord 0b1100001100001111#16 = .ok (.rnd 3 0x0F#8) := by decide

theorem test_decode_group8 :
    decodeWord 0b1000000000010000#16 = .ok (.ldVV 0 1) ∧ decodeWord 0b1000000000010001#16 = .ok (.orVV 0 1) ∧
    decodeWord 0b1000000000010010#16 = .ok (.andVV 0 1) ∧ decodeWord 0b1000000000010011#16 = .ok (.xorVV 0 1) ∧
    decodeWord 0b1000111100010100#16 = .ok (.addVV 15 1) ∧ decodeWord 0b1000000000010101#16 = .ok (.subVV 0 1) ∧
    decodeWord 0b1000001000110110#16 = .ok (.shrV 2 3) ∧ decodeWord 0b1000000000010111#16 = .ok (.subnVV 0 1) ∧
    decodeWord 0b1000001000111110#16 = .ok (.shlV 2 3) ∧
    decodeWord 0b1000000000001000#16 = .error (.unmapped 0x8008#16) := by decide

theorem test_decode_index :
    decodeWord 0b1010000100100011#16 = .ok (.ldI 0x123#12) ∧ decodeWord 0b1111111100011110#16 = .ok (.addIV 15) ∧
    decodeWord 0b1111000000101001#16 = .ok (.ldFV 0) ∧ decodeWord 0b1111000100110011#16 = .ok (.ldBV 1) ∧
    decodeWord 0b1111001001010101#16 = .ok (.ldMIV 2) ∧ decodeWord 0b1111001001100101#16 = .ok (.ldVMI 2) := by decide

theorem test_decode_draw : decodeWord 0b1101000000010101#16 = .ok (.drw 0 1 5#4) := by decide

theorem test_decode_timers :
    decodeWord 0b1111010100000111#16 = .ok (.ldVDT 5) ∧ decodeWord 0b1111010100010101#16 = .ok (.ldDTV 5) ∧
    decodeWord 0b1111001000011000#16 = .ok (.ldSTV 2) := by decide

theorem test_decode_keys :
    decodeWord 0b1110000110011110#16 = .ok (.skp 1) ∧ decodeWord 0b1110000110100001#16 = .ok (.sknp 1) ∧
    decodeWord 0b1111001100001010#16 = .ok (.ldVK 3) ∧
    decodeWord 0b1110000010011111#16 = .error (.unmapped 0xE09F#16) := by decide

/-- Too few bytes are refused by name; the bytes after an instruction are left (R60, R95). -/
theorem test_decode_bytes :
    decodeBytes [0x12#8] = .error .truncated ∧
    decodeBytes [0x12#8, 0x34#8, 0x56#8] = .ok (.jp 0x234#12, [0x56#8]) := by decide

/-- The table's own numbering of a word's bits. -/
theorem test_decode_table_word : decodeTableWord 16 0x8236 = some (.shrV 2 3) ∧ decodeTableWord 16 0x5121 = none := by decide

/-! ### The cycle -/

/-- The first step after reset runs the word given to `withFetchWord`; nothing else ran before it. -/
theorem test_with_fetch_word :
    step (State.reset.withFetchWord 16 0x6A3C) = exec (.ldVB 10 0x3C#8) (State.reset.withFetchWord 16 0x6A3C) := rfl

/-- T7: an unmapped word advances `PC` and is reported. -/
theorem test_unmapped :
    (after idle 0x8008).pc = 0x202#16 ∧ (after idle 0x8008).diags = [⟨.invalidOpcode, 0x200#16, 0x8008#16⟩] ∧
    (after idle 0x8008).v = idle.v := by decide

/-- T12: an odd `PC` is legal (R62). -/
theorem test_odd_pc :
    ((next (step (bytes { idle with pc := 0x301#16 } [(0x301, 0x61#8), (0x302, 0x05#8)])) idle)).getV 1 = 5#8 ∧
    ((next (step (bytes { idle with pc := 0x301#16 } [(0x301, 0x61#8), (0x302, 0x05#8)])) idle)).pc = 0x303#16 := by
  decide

/-- T14: above the top of memory the fetch reads the top byte twice. -/
theorem test_fetch_clamped :
    (next (step (bytes { idle with pc := 0x1000#16 } [(0xFFF, 0x12#8)])) idle).pc = 0x212#16 := by decide

/-- R110: with no program loaded a step changes nothing. -/
theorem test_not_loaded : step State.reset = .next State.reset := rfl

/-! ### One step of each instruction -/

/-- D1 and D11: row 0 of glyph 0, and no pixel after the clear. -/
theorem test_cls :
    lit (after { idle with i := 0x050#16 } 0xD015) (row 0) = [(0, 0), (1, 0), (2, 0), (3, 0)] ∧
    lit (after (after { idle with i := 0x050#16 } 0xD015) 0x00E0) (row 0) = [] := by decide +kernel

/-- F1. -/
theorem test_ret :
    (after { idle with pc := 0x300#16, stack := [0x202#16] } 0x00EE).pc = 0x202#16 ∧
    (after { idle with pc := 0x300#16, stack := [0x202#16] } 0x00EE).stack = [] := by decide

/-- F2, E8. -/
theorem test_ret_empty :
    (after { idle with pc := 0x300#16 } 0x00EE).pc = 0x302#16 ∧
    (after { idle with pc := 0x300#16 } 0x00EE).diags = [⟨.stackUnderflow, 0x300#16, 0x00EE#16⟩] := by decide

/-- F3. -/
theorem test_jp : (after idle 0x1234).pc = 0x234#16 := by decide

/-- F7: the older return address stays below. -/
theorem test_call :
    (after { idle with pc := 0x300#16, stack := [0x202#16] } 0x2400).stack = [0x202#16, 0x302#16] ∧
    (after { idle with pc := 0x300#16, stack := [0x202#16] } 0x2400).pc = 0x400#16 := by decide

/-- F6: the return address wraps. -/
theorem test_call_wraps :
    (next (step (bytes { idle with pc := 0xFFFE#16 } [(0xFFF, 0x23#8)])) idle).stack = [0x0000#16] ∧
    (next (step (bytes { idle with pc := 0xFFFE#16 } [(0xFFF, 0x23#8)])) idle).pc = 0x323#16 := by decide

/-- F8 and F9. -/
theorem test_se_byte :
    (after (regs idle [(3, 0x42#8)]) 0x3342).pc = 0x204#16 ∧ (after (regs idle [(3, 0x41#8)]) 0x3342).pc = 0x202#16 := by
  decide

/-- F10 and F11. -/
theorem test_sne_byte :
    (after (regs idle [(3, 0x42#8)]) 0x4342).pc = 0x202#16 ∧ (after (regs idle [(3, 0x41#8)]) 0x4342).pc = 0x204#16 := by
  decide

/-- F12 and F13. -/
theorem test_se_reg :
    (after (regs idle [(1, 9#8), (2, 9#8)]) 0x5120).pc = 0x204#16 ∧
    (after (regs idle [(1, 9#8), (2, 8#8)]) 0x5120).pc = 0x202#16 := by decide

/-- T5 and F15. -/
theorem test_sne_reg :
    (after (regs idle [(1, 7#8), (2, 8#8)]) 0x9120).pc = 0x204#16 ∧
    (after (regs idle [(1, 9#8), (2, 9#8)]) 0x9120).pc = 0x202#16 := by decide

/-- F17: the sum is not masked. -/
theorem test_jp_v0 : (after (regs idle [(0, 0xFF#8)]) 0xBFFF).pc = 0x10FE#16 := by decide

/-- A1 and A2. -/
theorem test_ld_byte : (after idle 0x6AFF).getV 10 = 0xFF#8 ∧ (after idle 0x6F05).getV 15 = 5#8 := by decide

/-- A3: a wrap writes no flag. -/
theorem test_add_byte :
    (after (regs idle [(2, 0xFF#8)]) 0x7201).getV 2 = 0#8 ∧ (after (regs idle [(2, 0xFF#8)]) 0x7201).getV 15 = 0#8 := by
  decide

/-- A5. -/
theorem test_ld_reg : (after (regs idle [(1, 0x33#8)]) 0x8010).getV 0 = 0x33#8 := by decide

/-- A6: VF is kept. -/
theorem test_or :
    (after (regs idle [(0, 0x0F#8), (1, 0xF0#8), (15, 1#8)]) 0x8011).getV 0 = 0xFF#8 ∧
    (after (regs idle [(0, 0x0F#8), (1, 0xF0#8), (15, 1#8)]) 0x8011).getV 15 = 1#8 := by decide

/-- A7. -/
theorem test_and :
    (after (regs idle [(0, 0x3C#8), (1, 0x0F#8), (15, 1#8)]) 0x8012).getV 0 = 0x0C#8 ∧
    (after (regs idle [(0, 0x3C#8), (1, 0x0F#8), (15, 1#8)]) 0x8012).getV 15 = 1#8 := by decide

/-- A8. -/
theorem test_xor : (after (regs idle [(0, 0x5A#8)]) 0x8003).getV 0 = 0#8 := by decide

/-- A9. -/
theorem test_add :
    (after (regs idle [(0, 0xFF#8), (1, 1#8)]) 0x8014).getV 0 = 0#8 ∧
    (after (regs idle [(0, 0xFF#8), (1, 1#8)]) 0x8014).getV 15 = 1#8 := by decide

/-- A11 and A12: VF as the destination holds the flag; as a source it gives its old value. -/
theorem test_add_vf :
    (after (regs idle [(15, 0xFF#8), (1, 1#8)]) 0x8F14).getV 15 = 1#8 ∧
    (after (regs idle [(15, 1#8), (0, 0xFF#8)]) 0x80F4).getV 0 = 0#8 := by decide

/-- A14, and the third row of E3 (equal operands do not borrow). -/
theorem test_sub :
    (after (regs idle [(1, 1#8)]) 0x8015).getV 0 = 0xFF#8 ∧ (after (regs idle [(1, 1#8)]) 0x8015).getV 15 = 0#8 ∧
    (after (regs idle [(0, 0x42#8), (1, 0x42#8)]) 0x8015).getV 15 = 1#8 := by decide

/-- A15: the source register Y is not read. -/
theorem test_shr :
    (after (regs idle [(2, 5#8), (3, 0xAA#8)]) 0x8236).getV 2 = 2#8 ∧
    (after (regs idle [(2, 5#8), (3, 0xAA#8)]) 0x8236).getV 15 = 1#8 := by decide

/-- A17. -/
theorem test_shr_vf : (after (regs idle [(15, 3#8)]) 0x8FF6).getV 15 = 1#8 := by decide

/-- A18 and A19. -/
theorem test_subn :
    (after (regs idle [(0, 5#8), (1, 3#8)]) 0x8017).getV 0 = 0xFE#8 ∧
    (after (regs idle [(0, 5#8), (1, 3#8)]) 0x8017).getV 15 = 0#8 ∧
    (after (regs idle [(0, 3#8), (1, 5#8)]) 0x8017).getV 15 = 1#8 := by decide

/-- A20. -/
theorem test_shl :
    (after (regs idle [(2, 0x81#8)]) 0x823E).getV 2 = 2#8 ∧ (after (regs idle [(2, 0x81#8)]) 0x823E).getV 15 = 1#8 := by
  decide

/-- A22. -/
theorem test_shl_vf : (after (regs idle [(15, 0x80#8)]) 0x8FFE).getV 15 = 1#8 := by decide

/-- A24: with the mask 0 the byte drawn does not matter; one byte is drawn. -/
theorem test_rnd_masked (s : State) : (next (exec (.rnd 3 0#8) s) s).getV 3 = 0#8 := by
  simp [next, exec, execRnd, State.getV, State.setV]

/-- M1. -/
theorem test_ld_i : (after idle 0xA123).i = 0x123#16 := by decide

/-- M3 and M5. -/
theorem test_add_i :
    (after (regs { idle with i := 0xFFF#16 } [(0, 1#8)]) 0xF01E).i = 0x1000#16 ∧
    (after (regs { idle with i := 0xFFF#16 } [(0, 1#8)]) 0xF01E).getV 15 = 1#8 ∧
    (after (regs { idle with i := 0xFFFF#16 } [(0, 1#8)]) 0xF01E).getV 15 = 0#8 := by decide

/-- M6: VF is the operand and then the flag. -/
theorem test_add_i_vf :
    (after (regs { idle with i := 0x0FFE#16 } [(15, 5#8)]) 0xFF1E).i = 0x1003#16 ∧
    (after (regs { idle with i := 0x0FFE#16 } [(15, 5#8)]) 0xFF1E).getV 15 = 1#8 := by decide

/-- M8: the digit is the low nibble. -/
theorem test_ld_font : (after (regs idle [(0, 0x1B#8)]) 0xF029).i = 0x087#16 := by decide

/-- M9. -/
theorem test_decimal :
    (List.range 3).map (fun k => (after (regs { idle with i := 0x300#16 } [(1, 0xFE#8)]) 0xF133).memRead (0x300 + k)) =
      [2#8, 5#8, 4#8] := by decide

/-- M11 and M12: the write past the top is dropped alone; writes to the font are dropped. -/
theorem test_decimal_dropped :
    (after (regs { idle with i := 0xFFE#16 } [(1, 0xFF#8)]) 0xF133).memRead 0xFFF = 5#8 ∧
    (after (regs { idle with i := 0x050#16 } [(1, 0x7B#8)]) 0xF133).memRead 0x050 = 0xF0#8 := by decide

/-- M14: the registers past the top are skipped and nothing wraps to 0. -/
theorem test_store_regs :
    (after (regs { idle with i := 0xFFE#16 } [(0, 1#8), (1, 2#8), (2, 3#8), (3, 4#8)]) 0xF355).memRead 0xFFE = 1#8 ∧
    (after (regs { idle with i := 0xFFE#16 } [(0, 1#8), (1, 2#8), (2, 3#8), (3, 4#8)]) 0xF355).memRead 0xFFF = 2#8 ∧
    (after (regs { idle with i := 0xFFE#16 } [(0, 1#8), (1, 2#8), (2, 3#8), (3, 4#8)]) 0xF355).memRead 0x000 = 0#8 := by
  decide

/-- M13: the address register is not advanced. -/
theorem test_store_keeps_i :
    (after (regs { idle with i := 0x400#16 } [(0, 1#8), (1, 2#8), (2, 3#8)]) 0xF255).i = 0x400#16 ∧
    (after (regs { idle with i := 0x400#16 } [(0, 1#8), (1, 2#8), (2, 3#8)]) 0xF255).memRead 0x402 = 3#8 := by
  decide

/-- M17: registers with no address keep their value. -/
theorem test_load_regs :
    (after (regs (bytes { idle with i := 0xFFF#16 } [(0xFFF, 0x77#8)]) [(1, 0x11#8), (2, 0x11#8)]) 0xF265).getV 0 = 0x77#8 ∧
    (after (regs (bytes { idle with i := 0xFFF#16 } [(0xFFF, 0x77#8)]) [(1, 0x11#8), (2, 0x11#8)]) 0xF265).getV 2 = 0x11#8 := by
  decide +kernel

/-- M18: the glyph 0 is in memory after reset. -/
theorem test_load_glyph :
    [0, 1, 2, 3, 4].map (after { idle with i := 0x050#16 } 0xF465).getV = [0xF0#8, 0x90#8, 0x90#8, 0x90#8, 0xF0#8] := by
  decide

/-- D3: the origin wraps, the leftmost pixel is bit 7. -/
theorem test_draw_origin_wraps :
    lit (after (regs (bytes { idle with i := 0x300#16 } [(0x300, 0x81#8)]) [(0, 67#8), (1, 33#8)]) 0xD011) (row 1) =
      [(3, 1), (10, 1)] := by decide +kernel

/-- D2, E5: the sprite is clipped at the right edge. -/
theorem test_draw_clipped :
    lit (after (regs (bytes { idle with i := 0x300#16 } [(0x300, 0xFF#8)]) [(0, 60#8)]) 0xD011) (row 0) =
      [(60, 0), (61, 0), (62, 0), (63, 0)] := by decide +kernel

/-- TM1. -/
theorem test_ld_from_dt : (after { idle with dt := 0x3C#8 } 0xF507).getV 5 = 0x3C#8 := by decide

/-- TM2. -/
theorem test_ld_dt : (after (regs idle [(5, 0x3C#8)]) 0xF515).dt = 0x3C#8 := by decide

/-- TM3. -/
theorem test_ld_st : (after (regs idle [(2, 5#8)]) 0xF218).st = 5#8 := by decide

/-- K3 and K2: the low nibble names the key. -/
theorem test_skp :
    (after ((regs idle [(1, 0x1A#8)]).setKey 10 true) 0xE19E).pc = 0x204#16 ∧
    (after (regs idle [(1, 5#8)]) 0xE19E).pc = 0x202#16 := by decide

/-- K4 and K5. -/
theorem test_sknp :
    (after (regs idle [(1, 5#8)]) 0xE1A1).pc = 0x204#16 ∧
    (after ((regs idle [(1, 5#8)]).setKey 5 true) 0xE1A1).pc = 0x202#16 := by decide

/-- E6, first row. -/
theorem test_key_wait :
    (after idle 0xF30A).mode = .awaitingKey 3 ∧ (after idle 0xF30A).pc = 0x200#16 := by decide

/-! ### Timers, keys, scheduler and host -/

/-- TM4, TM5 and TM7. -/
theorem test_timer_tick :
    ({ idle with dt := 5#8 } : State).timerTick.dt = 4#8 ∧ ({ idle with st := 1#8 } : State).timerTick.soundOn = false ∧
    ({ idle with dt := 3#8, mode := .awaitingKey 0 } : State).timerTick.dt = 2#8 := by decide

/-- K8: the first press is kept. -/
theorem test_first_press :
    ((({ idle with mode := .awaitingKey 3 } : State).setKey 5 true).setKey 7 true).captured = some 5 := by decide

/-- K6: a key that is held when the wait begins does not count. -/
theorem test_held_key :
    (({ idle with mode := .awaitingKey 1, keyDown := idle.keyDown.set 2 true } : State).setKey 2 true).captured = none := by
  decide

/-- K11: the key's index goes into the destination, the flag register too. -/
theorem test_key_stored :
    (next (step { idle with mode := .awaitingKey 15, captured := some 9 }) idle).getV 15 = 9#8 := by decide

/-- The rate of the vectors S1 to S6: 120 steps in a second. -/
def rate120 : Config.Rate := ⟨⟨120, by decide⟩, ⟨1, by decide⟩⟩

/-- A machine at the counts of a row of S1 to S6. -/
def counted (instrDone timerDone : Nat) : State :=
  { idle with instrHz := rate120, instrDone := instrDone, timerDone := timerDone }

/-- The counts after one pass at `now` seconds. -/
def counts (s : State) (now : Rat) : Nat × Nat :=
  ((next (step { s with calls := [.pass now []] }) s).instrDone, (next (step { s with calls := [.pass now []] }) s).timerDone)

/-- S1, S2 and S3. -/
theorem test_pass_due :
    counts (counted 0 0) (1 / 240) = (0, 0) ∧ counts (counted 0 0) (1 / 120) = (1, 0) ∧
    counts (counted 1 0) (1 / 60) = (2, 1) := by decide +kernel

/-- S4 and S5. -/
theorem test_pass_again_and_behind :
    counts (counted 2 1) (1 / 60) = (2, 1) ∧ counts (counted 2 1) 1 = (3, 2) := by decide +kernel

/-- R1: the first and the last byte of the font, and the byte after it. -/
theorem test_reset_font :
    State.reset.memRead 0x050 = 0xF0#8 ∧ State.reset.memRead 0x09F = 0x80#8 ∧ State.reset.memRead 0x0A0 = 0#8 := by
  decide

/-- R4: an empty program is loaded, and the step fetches 0x0000. -/
theorem test_load_nothing :
    (State.reset.loadProgram []).loaded = true ∧ (State.reset.loadProgram []).fetchWord = 0x0000#16 := by decide

/-- R5: a load after the start is refused. -/
theorem test_load_late : idle.loadProgram [0x12#8, 0x34#8] = idle := rfl

/-! ### The statements' hypotheses and cases are met -/

theorem test_meets_EncodeOfDecodeIsIdentity : decodeWord 0x8FF6#16 = .ok (.shrV 15 15) := by decide

/-- Both cases. -/
theorem test_meets_DecoderFollowsOpcodeTable :
    opcodeTable.filter (rowMatches 0x1234#16) = [rowOf (.jp 0x234#12)] ∧ opcodeTable.filter (rowMatches 0x800F#16) = [] := by
  decide

/-- A word of each case of R93, beside a mapped one of the same group. -/
theorem test_meets_UnmappedWordsAreThoseListed :
    [0x00E1#16, 0x5001#16, 0x8008#16, 0x800F#16, 0x900F#16, 0xE09F#16, 0xF066#16].all
      (fun w => decodeWord w == .error (.unmapped w)) = true ∧
    [0x00E0#16, 0x5000#16, 0x8007#16, 0x800E#16, 0x9000#16, 0xE0A1#16, 0xF065#16].all wordMapped = true := by decide

theorem test_meets_StepRunsDecodedInstruction :
    (idle.withFetchWord 16 0x1234).Ticking ∧ (idle.withFetchWord 16 0x1234).mode = .running ∧
    decodeWord (idle.withFetchWord 16 0x1234).fetchWord = .ok (.jp 0x234#12) :=
  ⟨⟨rfl, rfl, by simp [State.withFetchWord, State.readyToRun], rfl⟩, rfl, by decide⟩

/-- `PC` below, at and above the top of memory. -/
theorem test_meets_FetchReadsHighByteFirst :
    ({ idle with pc := 0x050#16 } : State).fetchWord = 0xF090#16 ∧
    (bytes { idle with pc := 0xFFE#16 } [(0xFFE, 0x12#8), (0xFFF, 0x34#8)]).fetchWord = 0x1234#16 ∧
    (bytes { idle with pc := 0xFFF#16 } [(0xFFF, 0x34#8)]).fetchWord = 0x3434#16 := by decide

theorem test_meets_UnmappedWordIsNoOpWithDiagnostic :
    idle.Ticking ∧ idle.mode = .running ∧ decodeWord idle.fetchWord = .error (.unmapped idle.fetchWord) :=
  ⟨⟨rfl, rfl, by simp [idle], rfl⟩, rfl, by decide⟩

/-- Both parts: no load, and a load without a start, where the word 0x1234 at `PC` is not run though it decodes. -/
theorem test_meets_NoStepBeforeLoad :
    State.reset.loaded = false ∧ State.reset.calls = [] ∧
    (State.reset.loadProgram [0x12#8, 0x34#8]).t0 = none ∧ (State.reset.loadProgram [0x12#8, 0x34#8]).calls = [] ∧
    (State.reset.loadProgram [0x12#8, 0x34#8]).loaded = true ∧
    decodeWord (State.reset.loadProgram [0x12#8, 0x34#8]).fetchWord = .ok (.jp 0x234#12) ∧
    (next (step (State.reset.loadProgram [0x12#8, 0x34#8])) idle).pc = 0x200#16 := by decide

/-- Both cases. -/
theorem test_meets_RetPopsOrReportsUnderflow :
    ({ idle with stack := [0x202#16, 0x302#16] } : State).stack = [0x202#16] ++ [0x302#16] ∧ idle.stack = [] := ⟨rfl, rfl⟩

/-- The boundary of the carry: 255 and 256. -/
theorem test_meets_AddSetsCarry :
    (after (regs idle [(0, 0x7F#8), (1, 0x80#8)]) 0x8014).getV 15 = 0#8 ∧
    (after (regs idle [(0, 0x80#8), (1, 0x80#8)]) 0x8014).getV 15 = 1#8 ∧ (0 : Reg) ≠ regVF := by decide

/-- The boundary of the borrow: equal operands, and a difference of one. -/
theorem test_meets_SubtractsSetNoBorrow :
    (after (regs idle [(0, 5#8), (1, 5#8)]) 0x8015).getV 15 = 1#8 ∧
    (after (regs idle [(0, 4#8), (1, 5#8)]) 0x8015).getV 15 = 0#8 ∧
    (after (regs idle [(0, 5#8), (1, 4#8)]) 0x8017).getV 15 = 0#8 := by decide

/-- The boundary of the overflow: 0xFFF and 0x1000. -/
theorem test_meets_AddIndexSetsOverflow :
    (after (regs { idle with i := 0xFFE#16 } [(0, 1#8)]) 0xF01E).getV 15 = 0#8 ∧
    (after (regs { idle with i := 0x1000#16 } [(0, 0#8)]) 0xF01E).getV 15 = 1#8 := by decide

/-- Each of the three instructions changes `I` from some state. -/
theorem test_meets_OnlyThreeInstructionsWriteIndex :
    (next (exec (.ldI 0x123#12) idle) idle).i ≠ idle.i ∧
    (next (exec (.addIV 0) (regs idle [(0, 1#8)])) idle).i ≠ idle.i ∧ (next (exec (.ldFV 0) idle) idle).i ≠ idle.i := by
  decide

/-- An address on each side of every edge of what a write stores to. -/
theorem test_meets_DecimalDigitsAreStored :
    Stores 0x04F ∧ ¬ Stores 0x050 ∧ ¬ Stores 0x09F ∧ Stores 0x0A0 ∧ Stores 0xFFF ∧ ¬ Stores 0x1000 := by
  unfold Stores
  decide

/-- The last byte below the font stores, the first of the font does not: FX33 at 0x04E and FX55 at 0x09F. -/
theorem test_meets_RegistersAreStored :
    (after (regs { idle with i := 0x04E#16 } [(1, 0xFE#8)]) 0xF133).memRead 0x04F = 5#8 ∧
    (after (regs { idle with i := 0x04E#16 } [(1, 0xFE#8)]) 0xF133).memRead 0x050 = 0xF0#8 ∧
    (after (regs { idle with i := 0x09F#16 } [(0, 1#8), (1, 2#8)]) 0xF155).memRead 0x09F = 0x80#8 ∧
    (after (regs { idle with i := 0x09F#16 } [(0, 1#8), (1, 2#8)]) 0xF155).memRead 0x0A0 = 2#8 := by decide

/-- M15's address: nothing exists there, no register is loaded. -/
theorem test_meets_RegistersAreLoaded :
    (after (regs { idle with i := 0x1000#16 } [(0, 7#8)]) 0xF065).getV 0 = 7#8 ∧
    (after (regs (bytes { idle with i := 0xFFF#16 } [(0xFFF, 9#8)]) [(0, 7#8)]) 0xF065).getV 0 = 9#8 := by decide

theorem test_meets_LoadUndoesStore :
    ∀ r : Reg, r ≤ 15 → Stores (({ idle with i := 0x300#16 } : State).i.toNat + r.val) := by
  unfold Stores
  decide

/-- Each case of a read after a write: in the font, at the top, above the top. -/
theorem test_meets_ReadAfterWrite :
    (idle.memWrite 0x050 1#8).memRead 0x050 = 0xF0#8 ∧ (idle.memWrite 0xFFF 1#8).memRead 0x1000 = 1#8 ∧
    (idle.memWrite 0x1000 1#8).memRead 0xFFF = 0#8 := by decide

/-- A memory in the canonical form, and two that are not. -/
theorem test_meets_CanonicalMemoriesAreEqualData :
    Memory.wf [(0x300, 1#8), (0x301, 2#8)] ∧ ¬ Memory.wf [(0x301, 1#8), (0x300, 2#8)] ∧ ¬ Memory.wf [(0x300, 0#8)] := by
  decide

/-- A lit place (R203: glyph 0 begins at its top left), and one that is not lit. -/
theorem test_meets_DrawInvertsLitPlaces :
    ({ idle with i := 0x050#16 } : State).SpriteLights 0 1 5#4 0 0 ∧
    ¬ ({ idle with i := 0x050#16 } : State).SpriteLights 0 1 5#4 1 1 := by
  unfold State.SpriteLights
  decide

/-- The hypothesis, and both values of the second flag: a clear display, and one whose lit place is on. -/
theorem test_meets_SecondDrawRestoresDisplay :
    (0 : Reg) ≠ regVF ∧ (1 : Reg) ≠ regVF ∧
    (after (after { idle with i := 0x050#16 } 0xD011) 0xD011).getV 15 = 1#8 ∧
    (after (after (after { idle with i := 0x050#16 } 0xD011) 0xD011) 0xD011).getV 15 = 0#8 := by decide +kernel

theorem test_meets_TimerTickCountsDown :
    ({ idle with dt := 0#8, st := 255#8 } : State).timerTick.dt = 0#8 ∧
    ({ idle with dt := 0#8, st := 255#8 } : State).timerTick.st = 254#8 := by decide

theorem test_meets_KeySkips : (10 : Key).val = ((regs idle [(1, 0x1A#8)]).getV 1).toNat % 16 := by decide

/-- A wait without and with a captured key. -/
theorem test_meets_KeyWaitCheck :
    ({ idle with mode := .awaitingKey 3 } : State).Ticking ∧ ({ idle with mode := .awaitingKey 3 } : State).captured = none ∧
    ({ idle with mode := .awaitingKey 3, captured := some 15 } : State).Ticking :=
  ⟨⟨rfl, rfl, by simp [idle], rfl⟩, rfl, ⟨rfl, rfl, by simp [idle], rfl⟩⟩

theorem test_meets_KeyWaitLiveness :
    idle.Ticking ∧ exec (.ldVK 3) idle = .next (next (exec (.ldVK 3) idle) idle) ∧ idle.isDown 15 = false :=
  ⟨⟨rfl, rfl, by simp [idle], rfl⟩, rfl, by decide⟩

/-- The capturing case; a release, a press in `Running` and index 16 capture nothing. -/
theorem test_meets_SetKeyLatchesAndCaptures :
    (({ idle with mode := .awaitingKey 3 } : State).setKey 15 true).captured = some 15 ∧
    (({ idle with mode := .awaitingKey 3 } : State).setKey 15 false).captured = none ∧
    (idle.setKey 4 true).captured = none ∧ (idle.setKey 4 true).isDown 4 = true ∧ idle.setKey 16 true = idle :=
  ⟨rfl, rfl, rfl, rfl, rfl⟩

/-- The hypotheses, with a step and a tick due exactly now, and neither due just before. -/
theorem test_meets_PassStepsThenTicks :
    (counted 1 0).terminated = false ∧ (counted 1 0).t0 = some 0 ∧ (counted 1 0).loaded = true ∧
    counts (counted 1 0) (1 / 60) = (2, 1) ∧ counts (counted 1 0) (1 / 61) = (1, 0) := by decide +kernel

/-- Each case: one more, none more, and a start. -/
theorem test_meets_AtMostOneStepAndTick :
    counts (counted 3 2) 1 = (4, 3) ∧ counts (counted 2 1) (1 / 60) = (2, 1) ∧
    (next (step { idle with t0 := none, calls := [.start 5] }) idle).t0 = some 5 := by decide +kernel

/-- Each case: no diagnostic, an unmapped word, an underflow. -/
theorem test_meets_AtMostOneDiagnosticPerStep :
    (after idle 0x00E0).diags = [] ∧ (after idle 0x0000).diags = [⟨.invalidOpcode, 0x200#16, 0x0000#16⟩] ∧
    (after idle 0x00EE).diags = [⟨.stackUnderflow, 0x200#16, 0x00EE#16⟩] := by decide

/-- Each case of a load: the longest program that fits, one byte more, and one after the start. -/
theorem test_meets_LoadProgramCopiesOrRefuses :
    State.reset.t0 = none ∧ (List.replicate 0xE00 0xAB#8).length ≤ 0xE00 ∧ (List.replicate 0xE01 0xAB#8).length > 0xE00 ∧
    idle.t0 ≠ none := by
  rw [List.length_replicate, List.length_replicate]
  decide

/-- The bytes of a program go to 0x200 and up. -/
theorem test_load_copies :
    (State.reset.loadProgram [0x12#8, 0x34#8]).memRead 0x200 = 0x12#8 ∧
    (State.reset.loadProgram [0x12#8, 0x34#8]).memRead 0x201 = 0x34#8 ∧
    (State.reset.loadProgram [0x12#8, 0x34#8]).memRead 0x202 = 0#8 := by decide

/-- The start that takes effect; one before a load; a second one, which names another time. -/
theorem test_meets_StartBeginsSchedulerOnce :
    (next (step { idle with t0 := none, instrDone := 3, calls := [.start 5] }) idle).t0 = some 5 ∧
    (next (step { idle with t0 := none, instrDone := 3, calls := [.start 5] }) idle).instrDone = 0 ∧
    (next (step { State.reset with calls := [.start 5] }) idle).t0 = none ∧
    (next (step { idle with instrDone := 3, calls := [.start 5] }) idle).t0 = some 0 ∧
    (next (step { idle with instrDone := 3, calls := [.start 5] }) idle).instrDone = 3 := by decide +kernel

/-- Each call due exactly now and not due just before; before the start neither acts (S2 and S3 of the vectors; D37). -/
theorem test_meets_CallsAtTimeActIfDue :
    (next (step { counted 0 0 with calls := [.step (1 / 120)] }) idle).instrDone = 1 ∧
    (next (step { counted 0 0 with calls := [.step (1 / 121)] }) idle).instrDone = 0 ∧
    (next (step { counted 0 0 with dt := 5#8, calls := [.tickTimers (1 / 60)] }) idle).dt = 4#8 ∧
    (next (step { counted 0 0 with dt := 5#8, calls := [.tickTimers (1 / 61)] }) idle).dt = 5#8 ∧
    (next (step { counted 0 0 with t0 := none, dt := 5#8, calls := [.tickTimers 1] }) idle).dt = 5#8 ∧
    (next (step { counted 0 0 with t0 := none, dt := 5#8, calls := [.pass 1 [⟨4, true⟩]] }) idle).dt = 5#8 ∧
    (next (step { counted 0 0 with t0 := none, dt := 5#8, calls := [.pass 1 [⟨4, true⟩]] }) idle).isDown 4 = true := by
  decide +kernel

/-- Each strobe after and before the start; a key event before it. -/
theorem test_meets_UntimedCallsAreServed :
    (next (step { idle with calls := [.instrTick] }) idle).pc = 0x202#16 ∧
    (next (step { idle with calls := [.instrTick] }) idle).instrDone = 0 ∧
    (next (step { idle with t0 := none, calls := [.instrTick] }) idle).pc = 0x200#16 ∧
    (next (step { idle with dt := 5#8, calls := [.timerTick] }) idle).dt = 4#8 ∧
    (next (step { idle with t0 := none, dt := 5#8, calls := [.timerTick] }) idle).dt = 5#8 ∧
    (next (step { State.reset with calls := [.setKey 4 true] }) idle).isDown 4 = true ∧
    (next (step { State.reset with calls := [.loadProgram []] }) idle).loaded = true := by decide

theorem test_meets_BootRunsFirstWord :
    ([] : List Byte).length ≤ 0xDFE ∧ decodeWord (wordOfBytes 0x12#8 0x34#8) = .ok (.jp 0x234#12) := by decide

/-- Both parts. -/
theorem test_meets_TerminationStopsTheLoop :
    idle.terminated = false ∧ ({ idle with calls := [.terminate] } : State).calls = [.terminate] ∧
    (next (step { idle with calls := [.terminate] }) idle).terminated = true := ⟨rfl, rfl, rfl⟩

/-- The last pixel of the port, and both values of each line. -/
theorem test_meets_PortsShowTheState :
    ({ idle with fb := setPixel idle.fb 63 31 true } : State).fbBits.getD 2047 false = true ∧
    idle.soundOn = false ∧ ({ idle with st := 1#8 } : State).soundOn = true ∧ idle.isAwaitingKey = false ∧
    ({ idle with mode := .awaitingKey 0 } : State).isAwaitingKey = true := by decide +kernel

/-- The invariant's hypothesis, in a state with memory written, a key captured and the scheduler started. -/
theorem test_meets_StepKeepsInvariant :
    State.Inv { bytes idle [(0x300, 1#8)] with mode := .awaitingKey 3, captured := some 5, instrDone := 7 } :=
  ⟨by decide, by decide, fun _ => Mode.noConfusion, fun _ => rfl, fun h => absurd (h : some (0 : Rat) = none) nofun⟩

theorem test_meets_FontNeverMutated : idle.FontIntact := by
  unfold State.FontIntact
  decide

/-- For the statements over every next state of `exec`: one that writes no register, one that writes VF alone. -/
theorem test_meets_InstructionsWriteOnlyListedRegisters :
    exec (.ldI 0x300#12) idle = .next (next (exec (.ldI 0x300#12) idle) idle) ∧
    exec (.drw 0 1 5#4) idle = .next (next (exec (.drw 0 1 5#4) idle) idle) := ⟨rfl, rfl⟩

theorem test_meets_InstructionsChangeOnlyTheirParts :
    exec (.ldBV 1) idle = .next (next (exec (.ldBV 1) idle) idle) := rfl

theorem test_meets_OnlyRndDraws :
    exec (.rnd 3 0xFF#8) idle = .next (next (exec (.rnd 3 0xFF#8) idle) idle) ∧
    exec .cls idle = .next (next (exec .cls idle) idle) := ⟨rfl, rfl⟩

/-- `PC` at the last value before it wraps. -/
theorem test_meets_SequentialInstructionsAdvanceByTwo :
    redirects (.ldVB 0 0#8) = false ∧
    exec (.ldVB 0 0#8) { idle with pc := 0xFFFE#16 } =
      .next (next (exec (.ldVB 0 0#8) { idle with pc := 0xFFFE#16 }) idle) ∧
    (next (exec (.ldVB 0 0#8) { idle with pc := 0xFFFE#16 }) idle).pc = 0x0000#16 := ⟨rfl, rfl, rfl⟩

theorem test_meets_RateNeverChanges : step idle = .next (next (step idle) idle) := rfl

/-- A wait that goes on and one that ends. -/
theorem test_meets_AwaitingStepFetchesNothing :
    ({ idle with mode := .awaitingKey 3 } : State).instrStep = .next { idle with mode := .awaitingKey 3 } ∧
    (next ({ idle with mode := .awaitingKey 3, captured := some 1 } : State).instrStep idle).mode = .running := ⟨rfl, rfl⟩

end Sys2Proof.Tests
end

section
/-! PROOFS. What instructions leave of the host's side of the state, and O56: no step changes the instruction rate (R7). -/

namespace Sys2Proof.Machine

/-! ### No instruction writes the host's side (R40, R42, R43, R46, R7) -/

theorem SameHostSide.refl (s : State) : SameHostSide s s := ⟨rfl, rfl, rfl, rfl, rfl, rfl, rfl, rfl, rfl⟩

theorem SameHostSide.instrHz {s t : State} (h : SameHostSide s t) : t.instrHz = s.instrHz := by
  obtain ⟨_, _, _, _, _, hrate, _⟩ := h
  exact hrate

/-- A skip, taken or not, moves `PC` only. -/
theorem State.skipIf_sameHostSide (s : State) (c : Bool) : SameHostSide s (s.advance.skipIf c) := by
  simp [SameHostSide]

/-- RET, with a return address or with an empty stack (R130, R253). -/
theorem execRet_sameHostSide {s t : State} (h : execRet s = .next t) : SameHostSide s t := by
  unfold execRet at h
  split at h
  · obtain rfl := next_inj.1 h
    exact .refl s
  · obtain rfl := next_inj.1 h
    exact .refl s

/-- FX33: three writes of memory (R183). -/
theorem execLdBV_sameHostSide {x : Reg} {s t : State} (h : execLdBV x s = .next t) : SameHostSide s t := by
  obtain rfl := next_inj.1 h
  simp [SameHostSide]

/-- FX55: a run of stores (R184). -/
theorem execLdMIV_sameHostSide {x : Reg} {s t : State} (h : execLdMIV x s = .next t) : SameHostSide s t := by
  obtain rfl := next_inj.1 h
  obtain ⟨m, hm⟩ := s.advance.foldl_storeReg_eq (regsUpTo x)
  rw [hm]
  exact .refl s

/-- FX65: a run of loads (R185). -/
theorem execLdVMI_sameHostSide {x : Reg} {s t : State} (h : execLdVMI x s = .next t) : SameHostSide s t := by
  obtain rfl := next_inj.1 h
  obtain ⟨v, hv⟩ := s.advance.foldl_loadReg_eq (regsUpTo x)
  rw [hv]
  exact .refl s

/-- No instruction changes the host's side of the state. But for RET, the skips and the transfers to and from memory, the
next state is the state before with fields of the machine's own side written, whatever the operands. -/
theorem exec_sameHostSide {i : Instr} {s t : State} (h : exec i s = .next t) : SameHostSide s t := by
  cases i with
  | ret => exact execRet_sameHostSide h
  | ldBV x => exact execLdBV_sameHostSide h
  | ldMIV x => exact execLdMIV_sameHostSide h
  | ldVMI x => exact execLdVMI_sameHostSide h
  | seVB | sneVB | seVV | sneVV | skp | sknp =>
    obtain rfl := next_inj.1 h
    exact s.skipIf_sameHostSide _
  | _ =>
    obtain rfl := next_inj.1 h
    exact .refl s

theorem State.keyWaitStep_sameHostSide (s : State) (x : Reg) : SameHostSide s (s.keyWaitStep x) := by
  cases hc : s.captured with
  | none => rw [State.keyWaitStep_none hc]; exact .refl s
  | some k => rw [State.keyWaitStep_some hc]; exact .refl s

/-- One instruction step, whichever of its cases it is, leaves the host's side. -/
theorem State.instrStep_sameHostSide {s t : State} (h : s.instrStep = .next t) : SameHostSide s t := by
  rcases s.instrStep_cases with ⟨_, hs⟩ | ⟨_, x, _, hs⟩ | ⟨_, _, i, _, hs⟩ | ⟨_, _, _, hs⟩
  · obtain rfl := next_inj.1 (hs.symm.trans h)
    exact .refl s
  · obtain rfl := next_inj.1 (hs.symm.trans h)
    exact s.keyWaitStep_sameHostSide x
  · exact exec_sameHostSide (hs.symm.trans h)
  · obtain rfl := next_inj.1 (hs.symm.trans h)
    exact .refl s

/-! ### The rate under the scheduler's operations and the host's calls (R264 to R275) -/

theorem State.setKey_instrHz (s : State) (k : Nat) (down : Bool) : (s.setKey k down).instrHz = s.instrHz := by
  obtain ⟨kd, cap, h, _⟩ := s.setKey_cases k down
  rw [h]

theorem State.applyKeys_instrHz (s : State) (keys : List KeyEvent) : (s.applyKeys keys).instrHz = s.instrHz := by
  obtain ⟨kd, cap, h, _⟩ := s.applyKeys_cases keys
  rw [h]

theorem State.loadProgram_instrHz (s : State) (bytes : List Byte) : (s.loadProgram bytes).instrHz = s.instrHz := by
  rcases s.loadProgram_cases bytes with ⟨_, h⟩ | ⟨_, _, h⟩ | ⟨_, _, h⟩ <;> rw [h]

theorem State.startScheduler_instrHz (s : State) (t0 : Rat) : (s.startScheduler t0).instrHz = s.instrHz := by
  rcases s.startScheduler_cases t0 with ⟨_, _, h⟩ | ⟨_, h⟩ <;> rw [h]

theorem State.timerStrobe_instrHz (s : State) : s.timerStrobe.instrHz = s.instrHz := by
  unfold State.timerStrobe
  split <;> rfl

theorem State.tickIfDue_instrHz (s : State) (now : Rat) : (s.tickIfDue now).instrHz = s.instrHz := by
  rcases s.tickIfDue_cases now with h | ⟨_, _, _, h⟩
  · rw [h]
  · rw [h, State.timerTick_instrHz]

theorem State.instrTick_instrHz {s t : State} (h : s.instrTick = .next t) : t.instrHz = s.instrHz := by
  unfold State.instrTick at h
  split at h
  · exact (State.instrStep_sameHostSide h).instrHz
  · rw [next_inj.1 h]

theorem State.stepIfDue_instrHz {s t : State} {now : Rat} (h : s.stepIfDue now = .next t) : t.instrHz = s.instrHz := by
  rcases State.stepIfDue_cases h with rfl | ⟨_, u, _, _, _, hu, rfl⟩
  · rfl
  · exact (State.instrStep_sameHostSide hu).instrHz

/-- A pass: key events, at most one step, at most one timer tick (R265). -/
theorem State.pass_instrHz {s t : State} {now : Rat} {keys : List KeyEvent} (h : s.pass now keys = .next t) :
    t.instrHz = s.instrHz := by
  obtain ⟨u, hu, ht⟩ := andThen_next.1 h
  obtain rfl := next_inj.1 ht
  rw [u.tickIfDue_instrHz, State.stepIfDue_instrHz hu, s.applyKeys_instrHz]

/-- Whatever the host calls, serving the call leaves the rate (R7). -/
theorem State.serve_instrHz {s t : State} {c : HostCall} (h : s.serve c = .next t) : t.instrHz = s.instrHz := by
  cases c with
  | loadProgram bytes => rw [← next_inj.1 h, s.loadProgram_instrHz]
  | start t0 => rw [← next_inj.1 h, s.startScheduler_instrHz]
  | setKey k down => rw [← next_inj.1 h, s.setKey_instrHz]
  | instrTick => exact State.instrTick_instrHz h
  | timerTick => rw [← next_inj.1 h, s.timerStrobe_instrHz]
  | step now => exact State.stepIfDue_instrHz h
  | tickTimers now => rw [← next_inj.1 h, s.tickIfDue_instrHz]
  | pass now keys => exact State.pass_instrHz h
  | terminate => rw [← next_inj.1 h]

/-- Settles O56: after termination nothing happens, a pending call is served, and an instruction tick leaves the host's
side; the rate is kept by each. -/
theorem rateNeverChanges : Obligations.RateNeverChanges := by
  intro s t h
  rcases step_cases s with ⟨_, hs⟩ | ⟨_, c, rest, _, hs⟩ | ⟨_, _, hs⟩
  · rw [next_inj.1 (hs.symm.trans h)]
  · exact State.serve_instrHz (s := { s with calls := rest }) (hs.symm.trans h)
  · exact State.instrTick_instrHz (hs.symm.trans h)

end Sys2Proof.Machine
end

section
/-! PROOFS. What each instruction leaves unchanged (10_state.md): O54, the frame of every instruction; O53, the registers of
R22's table; O55, the advance of `PC` (R26); and O49 and O50, what reset leaves (R45). -/

namespace Sys2Proof.Machine

/-! ### The frame of each state operation: it changes the part it writes, where that part is listed -/

section Frame

variable {ps : List Part} {s t : State}

theorem OnlyChanges.refl (ps : List Part) (s : State) : OnlyChanges ps s s :=
  ⟨.refl s, fun p _ => by cases p <;> simp [Part.Same]⟩

theorem OnlyChanges.jump (h : OnlyChanges ps s t) (a : Word) : OnlyChanges ps s (t.jump a) :=
  ⟨h.1, fun p hp => by cases p <;> exact h.2 _ hp⟩

/-- The advance moves `PC` only (R112). -/
theorem OnlyChanges.of_advance (ps : List Part) (s : State) : OnlyChanges ps s s.advance :=
  (OnlyChanges.refl ps s).jump (s.pc + 2#16)

theorem OnlyChanges.skipIf (h : OnlyChanges ps s t) (c : Bool) : OnlyChanges ps s (t.skipIf c) := by
  cases c with
  | false => exact h
  | true => exact h.jump (t.pc + 2#16)

/-- Any write of the general registers (R21). -/
theorem OnlyChanges.setRegs (h : OnlyChanges ps s t) (hv : Part.v ∈ ps) (v : Vector Byte 16) :
    OnlyChanges ps s { t with v := v } :=
  ⟨h.1, fun p hp => by
    cases p with
    | v => exact absurd hv hp
    | _ => exact h.2 _ hp⟩

theorem OnlyChanges.setV (h : OnlyChanges ps s t) (hv : Part.v ∈ ps) (x : Reg) (b : Byte) :
    OnlyChanges ps s (t.setV x b) :=
  h.setRegs hv (t.v.set x b)

theorem OnlyChanges.setI (h : OnlyChanges ps s t) (hi : Part.i ∈ ps) (a : Word) : OnlyChanges ps s (t.setI a) :=
  ⟨h.1, fun p hp => by
    cases p with
    | i => exact absurd hi hp
    | _ => exact h.2 _ hp⟩

/-- Any write of the stack, a push or a pop (R35). -/
theorem OnlyChanges.setStack (h : OnlyChanges ps s t) (hs : Part.stack ∈ ps) (stack : List Word) :
    OnlyChanges ps s { t with stack := stack } :=
  ⟨h.1, fun p hp => by
    cases p with
    | stack => exact absurd hs hp
    | _ => exact h.2 _ hp⟩

theorem OnlyChanges.setDt (h : OnlyChanges ps s t) (hd : Part.dt ∈ ps) (b : Byte) :
    OnlyChanges ps s { t with dt := b } :=
  ⟨h.1, fun p hp => by
    cases p with
    | dt => exact absurd hd hp
    | _ => exact h.2 _ hp⟩

theorem OnlyChanges.setSt (h : OnlyChanges ps s t) (hs : Part.st ∈ ps) (b : Byte) :
    OnlyChanges ps s { t with st := b } :=
  ⟨h.1, fun p hp => by
    cases p with
    | st => exact absurd hs hp
    | _ => exact h.2 _ hp⟩

/-- Any write of memory (R52). -/
theorem OnlyChanges.setMem (h : OnlyChanges ps s t) (hm : Part.mem ∈ ps) (mem : Memory) :
    OnlyChanges ps s { t with mem := mem } :=
  ⟨h.1, fun p hp => by
    cases p with
    | mem => exact absurd hm hp
    | _ => exact h.2 _ hp⟩

theorem OnlyChanges.setFb (h : OnlyChanges ps s t) (hf : Part.fb ∈ ps) (fb : Display) :
    OnlyChanges ps s { t with fb := fb } :=
  ⟨h.1, fun p hp => by
    cases p with
    | fb => exact absurd hf hp
    | _ => exact h.2 _ hp⟩

/-- Any write of the key wait (R236). -/
theorem OnlyChanges.setWait (h : OnlyChanges ps s t) (hw : Part.wait ∈ ps) (mode : Mode) (captured : Option Key) :
    OnlyChanges ps s { t with mode := mode, captured := captured } :=
  ⟨h.1, fun p hp => by
    cases p with
    | wait => exact absurd hw hp
    | _ => exact h.2 _ hp⟩

theorem OnlyChanges.emit (h : OnlyChanges ps s t) (hd : Part.diags ∈ ps) (kind : DiagKind) (pc word : Word) :
    OnlyChanges ps s (t.emit kind pc word) :=
  ⟨h.1, fun p hp => by
    cases p with
    | diags => exact absurd hd hp
    | _ => exact h.2 _ hp⟩

theorem OnlyChanges.countDraw (h : OnlyChanges ps s t) (hd : Part.draws ∈ ps) : OnlyChanges ps s t.countDraw :=
  ⟨h.1, fun p hp => by
    cases p with
    | draws => exact absurd hd hp
    | _ => exact h.2 _ hp⟩

/-- `MemWrite`, dropped or not, changes memory only (R55). -/
theorem OnlyChanges.memWrite (h : OnlyChanges ps s t) (hm : Part.mem ∈ ps) (a : Nat) (b : Byte) :
    OnlyChanges ps s (t.memWrite a b) := by
  unfold State.memWrite
  split
  · exact h.setMem hm _
  · exact h

theorem OnlyChanges.setWithFlag (h : OnlyChanges ps s t) (hv : Part.v ∈ ps) (x : Reg) (b : Byte) (f : Bool) :
    OnlyChanges ps s (t.setWithFlag x b f) :=
  (h.setV hv x b).setV hv regVF (flagByte f)

/-- The stores of FX55 change memory only (R184). -/
theorem OnlyChanges.storeRegs (h : OnlyChanges ps s t) (hm : Part.mem ∈ ps) (rs : List Reg) :
    OnlyChanges ps s (rs.foldl State.storeReg t) := by
  obtain ⟨m, hs⟩ := t.foldl_storeReg_eq rs
  rw [hs]
  exact h.setMem hm m

/-- The loads of FX65 change the general registers only (R185). -/
theorem OnlyChanges.loadRegs (h : OnlyChanges ps s t) (hv : Part.v ∈ ps) (rs : List Reg) :
    OnlyChanges ps s (rs.foldl State.loadReg t) := by
  obtain ⟨v, hl⟩ := t.foldl_loadReg_eq rs
  rw [hl]
  exact h.setRegs hv v

theorem OnlyChanges.getV (h : OnlyChanges ps s t) (hv : Part.v ∉ ps) (r : Reg) : t.getV r = s.getV r :=
  h.2 .v hv r

end Frame

/-! ### The frame of every instruction -/

/-- RET pops, or reports an empty stack (R130, R253). -/
theorem execRet_onlyChanges {s t : State} (h : execRet s = .next t) : OnlyChanges (partsOf .ret) s t := by
  have hs : Part.stack ∈ partsOf .ret := by decide
  have hd : Part.diags ∈ partsOf .ret := by decide
  have ha := OnlyChanges.of_advance (partsOf .ret) s
  unfold execRet at h
  split at h
  · obtain rfl := next_inj.1 h
    exact (ha.setStack hs _).jump _
  · obtain rfl := next_inj.1 h
    exact ha.emit hd _ _ _

/-- Every instruction is the advance of R112 and then writes of the parts listed for it. -/
theorem exec_onlyChanges {i : Instr} {s t : State} (h : exec i s = .next t) : OnlyChanges (partsOf i) s t := by
  have ha := OnlyChanges.of_advance (partsOf i) s
  cases i with
  | ret => exact execRet_onlyChanges h
  | cls =>
    obtain rfl := next_inj.1 h
    exact ha.setFb (by simp [partsOf]) _
  | jp | jpV0 =>
    obtain rfl := next_inj.1 h
    exact ha.jump _
  | call =>
    obtain rfl := next_inj.1 h
    exact (ha.setStack (by simp [partsOf]) _).jump _
  | seVB | sneVB | seVV | sneVV | skp | sknp =>
    obtain rfl := next_inj.1 h
    exact ha.skipIf _
  | ldVB | addVB | ldVV | orVV | andVV | xorVV | ldVDT =>
    obtain rfl := next_inj.1 h
    exact ha.setV (by simp [partsOf]) _ _
  | addVV | subVV | shrV | subnVV | shlV =>
    obtain rfl := next_inj.1 h
    exact ha.setWithFlag (by simp [partsOf]) _ _ _
  | rnd =>
    obtain rfl := next_inj.1 h
    exact (ha.countDraw (by simp [partsOf])).setV (by simp [partsOf]) _ _
  | drw =>
    obtain rfl := next_inj.1 h
    exact (ha.setFb (by simp [partsOf]) _).setV (by simp [partsOf]) _ _
  | ldI | ldFV =>
    obtain rfl := next_inj.1 h
    exact ha.setI (by simp [partsOf]) _
  | addIV =>
    obtain rfl := next_inj.1 h
    exact (ha.setI (by simp [partsOf]) _).setV (by simp [partsOf]) _ _
  | ldVK =>
    obtain rfl := next_inj.1 h
    exact (ha.setWait (by simp [partsOf]) _ _).jump _
  | ldDTV =>
    obtain rfl := next_inj.1 h
    exact ha.setDt (by simp [partsOf]) _
  | ldSTV =>
    obtain rfl := next_inj.1 h
    exact ha.setSt (by simp [partsOf]) _
  | ldBV x =>
    have hm : Part.mem ∈ partsOf (.ldBV x) := by simp [partsOf]
    obtain rfl := next_inj.1 h
    exact ((ha.memWrite hm _ _).memWrite hm _ _).memWrite hm _ _
  | ldMIV =>
    obtain rfl := next_inj.1 h
    exact ha.storeRegs (by simp [partsOf]) _
  | ldVMI =>
    obtain rfl := next_inj.1 h
    exact ha.loadRegs (by simp [partsOf]) _

/-- Settles O54: each instruction is the advance and writes of its own parts only. -/
theorem instructionsChangeOnlyTheirParts : Obligations.InstructionsChangeOnlyTheirParts :=
  fun _ _ _ => exec_onlyChanges

/-! ### The registers of R22 -/

/-- Writing a listed register keeps the others. -/
theorem RegsBut.setV {xs : List Reg} {s t : State} (h : RegsBut xs s t) {x : Reg} (hx : x ∈ xs) (b : Byte) :
    RegsBut xs s (t.setV x b) := fun r hr => by
  have hne : r ≠ x := fun hrx => hr (hrx ▸ hx)
  rw [State.getV_setV_ne t b hne, h r hr]

/-- An instruction whose parts do not list the registers writes none of them. -/
theorem regsBut_of_not_mem_partsOf {i : Instr} {s t : State} (h : exec i s = .next t) (hv : Part.v ∉ partsOf i)
    (xs : List Reg) : RegsBut xs s t :=
  fun r _ => (exec_onlyChanges h).getV hv r

/-- FX65 loads the registers up to `V[x]` and no other (R185). -/
theorem execLdVMI_regsBut {x : Reg} {s t : State} (h : execLdVMI x s = .next t) : RegsBut (regsUpTo x) s t := by
  intro r hr
  obtain rfl := next_inj.1 h
  rw [State.getV_foldl_loadReg, if_neg fun hmem => hr hmem.1, State.getV_advance]

/-- Settles O53: the instructions that write registers write those listed, one or two writes or the loads of FX65; the
others do not have the registers among their parts. -/
theorem instructionsWriteOnlyListedRegisters : Obligations.InstructionsWriteOnlyListedRegisters := by
  intro i s t h
  have hs : RegsBut (regsWritten i) s s := fun _ _ => rfl
  cases i with
  | ldVB | addVB | ldVV | orVV | andVV | xorVV | ldVDT | rnd =>
    obtain rfl := next_inj.1 h
    exact RegsBut.setV (t := s) hs (by simp [regsWritten]) _
  | addVV | subVV | shrV | subnVV | shlV =>
    obtain rfl := next_inj.1 h
    exact (RegsBut.setV (t := s) hs (by simp [regsWritten]) _).setV (by simp [regsWritten]) _
  | drw | addIV =>
    obtain rfl := next_inj.1 h
    exact RegsBut.setV (t := s) hs (by simp [regsWritten]) _
  | ldVMI => exact execLdVMI_regsBut h
  | _ => exact regsBut_of_not_mem_partsOf h (by simp [partsOf]) _

/-! ### The advance of `PC` (R26) -/

theorem execLdBV_pc {x : Reg} {s t : State} (h : execLdBV x s = .next t) : t.pc = s.pc + 2#16 := by
  obtain rfl := next_inj.1 h
  simp

theorem execLdMIV_pc {x : Reg} {s t : State} (h : execLdMIV x s = .next t) : t.pc = s.pc + 2#16 := by
  obtain rfl := next_inj.1 h
  obtain ⟨m, hm⟩ := s.advance.foldl_storeReg_eq (regsUpTo x)
  rw [hm]
  rfl

theorem execLdVMI_pc {x : Reg} {s t : State} (h : execLdVMI x s = .next t) : t.pc = s.pc + 2#16 := by
  obtain rfl := next_inj.1 h
  obtain ⟨v, hv⟩ := s.advance.foldl_loadReg_eq (regsUpTo x)
  rw [hv]
  rfl

/-- Outside R26's table nothing after the advance writes `PC`. -/
theorem exec_pc_of_not_redirects {i : Instr} {s t : State} (h : exec i s = .next t) (hr : redirects i = false) :
    t.pc = s.pc + 2#16 := by
  cases i with
  | ret | jp | call | jpV0 | ldVK => cases hr
  | seVB | sneVB | seVV | sneVV | skp | sknp => cases hr
  | ldBV x => exact execLdBV_pc h
  | ldMIV x => exact execLdMIV_pc h
  | ldVMI x => exact execLdVMI_pc h
  | _ =>
    obtain rfl := next_inj.1 h
    rfl

/-- Settles O55: `PC` is the advanced one, and the advance is modulo 65536. -/
theorem sequentialInstructionsAdvanceByTwo : Obligations.SequentialInstructionsAdvanceByTwo := by
  intro i s t h hr
  rw [exec_pc_of_not_redirects h hr]
  exact BitVec.toNat_add s.pc 2#16

/-! ### Reset (R45, R57) -/

/-- What memory holds after reset outside the font (R45). -/
theorem resetByte_outside_font {a : Nat} (h : ¬ (0x050 ≤ a ∧ a ≤ 0x09F)) : Config.resetByte a = 0#8 := by
  unfold Config.resetByte Config.fontBase
  split
  next hle =>
    have hlen : Config.fontData.length ≤ a - 0x050 := by
      rw [show Config.fontData.length = 80 from rfl]
      omega
    exact List.getD_eq_default _ _ hlen
  next => rfl

theorem State.reset_memRead {a : Nat} (ha : a ≤ 0xFFF) : State.reset.memRead a = Config.resetByte a :=
  State.reset.memRead_le ha

theorem State.reset_getV (r : Reg) : State.reset.getV r = 0#8 := by
  simp [State.getV, State.reset]

theorem State.reset_isDown (k : Key) : State.reset.isDown k = false := by
  simp [State.isDown, State.reset]

/-- Settles O49: registers, memory, display and keys by their lemmas, the font by computation, every other item is a field
of the reset state as written. -/
theorem resetLeavesListedValues : Obligations.ResetLeavesListedValues := by
  refine ⟨State.reset_getV, rfl, rfl, rfl, rfl, rfl, by decide, by decide, fun a ha hf => ?_, pixelAt_clearDisplay,
    State.reset_isDown, rfl, rfl, rfl, rfl, rfl, rfl⟩
  rw [State.reset_memRead ha, resetByte_outside_font hf]

/-- Settles O50: memory lists nothing, nothing is captured, the scheduler has not started and both counts are 0. -/
theorem invariantAtReset : Obligations.InvariantAtReset :=
  ⟨reset_mem_wf, nofun, fun hc => absurd rfl hc, fun h0 => absurd rfl h0, fun _ => ⟨rfl, rfl⟩⟩

end Sys2Proof.Machine
end

section
/-! PROOFS. Memory (20_memory.md) and what the whole machine keeps: O52, the font is never mutated (R58); O51, the invariant
of every step (R41, R55, R236, R264); O30, a read after a write (R55); O31, the canonical form gives equal data. -/

namespace Sys2Proof.Machine

/-! ### An invariant of the machine from its actions

Every step of the machine is made of the actions below (R265 to R275), so a property that each of them keeps is kept by every
step. -/

/-- Each action that a step of the machine is made of keeps `P`. The two counts are written only once the scheduler has
started. -/
structure KeptByActions (P : State → Prop) : Prop where
  dropCall : ∀ {s : State} (rest : List HostCall), P s → P { s with calls := rest }
  terminate : ∀ {s : State}, P s → P { s with terminated := true }
  setKey : ∀ {s : State} (k : Nat) (down : Bool), P s → P (s.setKey k down)
  loadProgram : ∀ {s : State} (bytes : List Byte), P s → P (s.loadProgram bytes)
  startScheduler : ∀ {s : State} (z : Rat), P s → P (s.startScheduler z)
  instrStep : ∀ {s t : State}, s.instrStep = .next t → P s → P t
  timerTick : ∀ {s : State}, P s → P s.timerTick
  countInstr : ∀ {s : State} (n : Nat), s.t0 ≠ none → P s → P { s with instrDone := n }
  countTimer : ∀ {s : State} (n : Nat), s.t0 ≠ none → P s → P { s with timerDone := n }

section Actions

variable {P : State → Prop} (hP : KeptByActions P) {s t : State}

include hP

theorem KeptByActions.applyKeys (keys : List KeyEvent) (hs : P s) : P (s.applyKeys keys) := by
  induction keys generalizing s with
  | nil => exact hs
  | cons e rest ih => exact ih (hP.setKey e.key e.down hs)

/-- The counted step of R265: the count is written where the scheduler has started, which no instruction undoes. -/
theorem KeptByActions.stepIfDue {now : Rat} (h : s.stepIfDue now = .next t) (hs : P s) : P t := by
  rcases State.stepIfDue_cases h with rfl | ⟨t0, u, ht0, _, _, hu, rfl⟩
  · exact hs
  · obtain ⟨_, _, hut0, _⟩ := State.instrStep_sameHostSide hu
    exact hP.countInstr _ (by simp [hut0, ht0]) (hP.instrStep hu hs)

theorem KeptByActions.tickIfDue (now : Rat) (hs : P s) : P (s.tickIfDue now) := by
  rcases s.tickIfDue_cases now with h | ⟨t0, ht0, _, h⟩
  · rwa [h]
  · rw [h]
    exact hP.countTimer _ (by simp [ht0]) (hP.timerTick hs)

theorem KeptByActions.pass {now : Rat} {keys : List KeyEvent} (h : s.pass now keys = .next t) (hs : P s) : P t := by
  obtain ⟨u, hu, ht⟩ := andThen_next.1 h
  obtain rfl := next_inj.1 ht
  exact hP.tickIfDue now (hP.stepIfDue hu (hP.applyKeys keys hs))

theorem KeptByActions.instrTick (h : s.instrTick = .next t) (hs : P s) : P t := by
  unfold State.instrTick at h
  split at h
  · exact hP.instrStep h hs
  · rwa [← next_inj.1 h]

theorem KeptByActions.timerStrobe (hs : P s) : P s.timerStrobe := by
  unfold State.timerStrobe
  split
  · exact hP.timerTick hs
  · exact hs

theorem KeptByActions.serve {c : HostCall} (h : s.serve c = .next t) (hs : P s) : P t := by
  cases c with
  | loadProgram bytes => exact next_inj.1 h ▸ hP.loadProgram bytes hs
  | start z => exact next_inj.1 h ▸ hP.startScheduler z hs
  | setKey k down => exact next_inj.1 h ▸ hP.setKey k down hs
  | instrTick => exact hP.instrTick h hs
  | timerTick => exact next_inj.1 h ▸ hP.timerStrobe hs
  | step now => exact hP.stepIfDue h hs
  | tickTimers now => exact next_inj.1 h ▸ hP.tickIfDue now hs
  | pass now keys => exact hP.pass h hs
  | terminate => exact next_inj.1 h ▸ hP.terminate hs

/-- What every action keeps, every step of the machine keeps. -/
theorem KeptByActions.step (h : step s = .next t) (hs : P s) : P t := by
  rcases step_cases s with ⟨_, hstep⟩ | ⟨_, c, rest, _, hstep⟩ | ⟨_, _, hstep⟩
  · rwa [← next_inj.1 (hstep.symm.trans h)]
  · exact hP.serve (hstep.symm.trans h) (hP.dropCall rest hs)
  · exact hP.instrTick (hstep.symm.trans h) hs

end Actions

/-! ### A step changes memory only by writes to addresses that a program can write (R55) -/

/-- One byte written at an address where a write is not dropped. -/
def ByteWrite (m n : Memory) : Prop := ∃ a b, writable a = true ∧ n = setCell m a b

/-- Any number of such writes, one after the other. -/
abbrev ByteWrites : Memory → Memory → Prop := Relation.ReflTransGen ByteWrite

theorem State.memWrite_byteWrites (s : State) (a : Nat) (b : Byte) : ByteWrites s.mem (s.memWrite a b).mem := by
  rw [State.memWrite_mem]
  split
  next ha => exact .single ⟨a, b, ha, rfl⟩
  next => exact .refl

theorem State.storeReg_byteWrites (s : State) (r : Reg) : ByteWrites s.mem (s.storeReg r).mem := by
  unfold State.storeReg
  split
  · exact s.memWrite_byteWrites _ _
  · exact .refl

theorem State.foldl_storeReg_byteWrites (s : State) (rs : List Reg) :
    ByteWrites s.mem (rs.foldl State.storeReg s).mem := by
  induction rs generalizing s with
  | nil => exact .refl
  | cons r rest ih => exact (s.storeReg_byteWrites r).trans (ih (s.storeReg r))

theorem execRet_mem {s t : State} (h : execRet s = .next t) : t.mem = s.mem := by
  unfold execRet at h
  split at h <;> obtain rfl := next_inj.1 h <;> rfl

/-- FX33 and FX55 write through `MemWrite`; no other instruction writes memory (R52). -/
theorem exec_byteWrites {i : Instr} {s t : State} (h : exec i s = .next t) : ByteWrites s.mem t.mem := by
  cases i with
  | ret => rw [execRet_mem h]
  | seVB | sneVB | seVV | sneVV | skp | sknp =>
    obtain rfl := next_inj.1 h
    rw [State.skipIf_mem, State.advance_mem]
  | ldBV x =>
    obtain rfl := next_inj.1 h
    exact ((s.advance.memWrite_byteWrites _ _).trans (State.memWrite_byteWrites _ _ _)).trans
      (State.memWrite_byteWrites _ _ _)
  | ldMIV x =>
    obtain rfl := next_inj.1 h
    exact s.advance.foldl_storeReg_byteWrites (regsUpTo x)
  | ldVMI x =>
    obtain rfl := next_inj.1 h
    obtain ⟨v, hv⟩ := s.advance.foldl_loadReg_eq (regsUpTo x)
    rw [hv]
    exact .refl
  | _ =>
    obtain rfl := next_inj.1 h
    exact .refl

theorem State.instrStep_byteWrites {s t : State} (h : s.instrStep = .next t) : ByteWrites s.mem t.mem := by
  rcases s.instrStep_cases with ⟨_, hs⟩ | ⟨_, x, _, hs⟩ | ⟨_, _, i, _, hs⟩ | ⟨_, _, _, hs⟩
  · obtain rfl := next_inj.1 (hs.symm.trans h)
    exact .refl
  · obtain rfl := next_inj.1 (hs.symm.trans h)
    cases hc : s.captured with
    | none => rw [State.keyWaitStep_none hc]
    | some k => rw [State.keyWaitStep_some hc]; exact .refl
  · exact exec_byteWrites (hs.symm.trans h)
  · obtain rfl := next_inj.1 (hs.symm.trans h)
    exact .refl

/-- The host's copy of a program, where it meets no address that a program cannot write (R305). -/
theorem copyBytes_byteWrites (m : Memory) (a : Nat) (bytes : List Byte)
    (hw : ∀ k, a ≤ k → k < a + bytes.length → writable k = true) : ByteWrites m (copyBytes m a bytes) := by
  induction bytes generalizing m a with
  | nil => exact .refl
  | cons b rest ih =>
    have ha : writable a = true := hw a le_rfl (by simp)
    exact .head ⟨a, b, ha, rfl⟩ (ih _ _ fun k hk hlt => hw k (by omega) (by simp; omega))

/-- A program of at most 0xE00 bytes from 0x200 up lies above the font and below 0x1000 (R305). -/
theorem State.loadProgram_byteWrites (s : State) (bytes : List Byte) :
    ByteWrites s.mem (s.loadProgram bytes).mem := by
  rcases s.loadProgram_cases bytes with ⟨_, h⟩ | ⟨_, _, h⟩ | ⟨_, hlen, h⟩
  · rw [h]
  · rw [h]
  · rw [h]
    exact copyBytes_byteWrites _ _ _ fun k hk hlt => (writable_iff k).2 (by omega)

/-- Memory was `m` some actions ago, and every action since then has kept to writes of bytes that a program can write. -/
theorem byteWrites_keptByActions (m : Memory) : KeptByActions fun s => ByteWrites m s.mem where
  dropCall _ hs := hs
  terminate hs := hs
  setKey k down hs := by
    obtain ⟨kd, cap, h, _⟩ := State.setKey_cases _ k down
    rwa [h]
  loadProgram bytes hs := hs.trans (State.loadProgram_byteWrites _ bytes)
  startScheduler z hs := by
    rcases State.startScheduler_cases _ z with ⟨_, _, h⟩ | ⟨_, h⟩ <;> rwa [h]
  instrStep h hs := hs.trans (State.instrStep_byteWrites h)
  timerTick hs := hs
  countInstr _ _ hs := hs
  countTimer _ _ hs := hs

theorem step_byteWrites {s t : State} (h : step s = .next t) : ByteWrites s.mem t.mem :=
  (byteWrites_keptByActions s.mem).step h .refl

/-! ### What such writes keep -/

theorem ByteWrites.wf {m n : Memory} (h : ByteWrites m n) (hm : m.wf) : n.wf := by
  induction h with
  | refl => exact hm
  | tail _ hw ih =>
    obtain ⟨a, b, _, rfl⟩ := hw
    exact setCell_wf ih a b

/-- Memory goes on to list only bytes that a program can write. -/
theorem ByteWrites.lists_writable {m n : Memory} (h : ByteWrites m n) (hm : ∀ c ∈ m, writable c.1 = true) :
    ∀ c ∈ n, writable c.1 = true := by
  induction h with
  | refl => exact hm
  | tail _ hw ih =>
    obtain ⟨a, b, ha, rfl⟩ := hw
    intro c hc
    rcases mem_setCell hc with rfl | hc
    · exact ha
    · exact ih c hc

/-- A byte that a program cannot write is as before. -/
theorem ByteWrites.cellAt_eq {m n : Memory} (h : ByteWrites m n) {k : Nat} (hk : ¬ writable k = true) :
    cellAt n k = cellAt m k := by
  induction h with
  | refl => rfl
  | tail _ hw ih =>
    obtain ⟨a, b, ha, rfl⟩ := hw
    have hne : k ≠ a := fun hka => hk (hka ▸ ha)
    rw [cellAt_setCell, if_neg hne, ih]

/-! ### The font (R57, R58) -/

theorem State.reset_fontIntact : State.reset.FontIntact := by
  intro k hk
  rw [State.reset_memRead (by omega)]
  simp [Config.resetByte, Config.fontBase]

/-- The font area holds no byte that a program can write (R55, R56). -/
theorem State.FontIntact.of_byteWrites {s t : State} (hs : s.FontIntact) (h : ByteWrites s.mem t.mem) : t.FontIntact := by
  intro k hk
  have hle : 0x050 + k ≤ 0xFFF := by omega
  have hfont : ¬ writable (0x050 + k) = true := fun hw => ((writable_iff _).1 hw).2 (by omega)
  rw [← hs k hk, t.memRead_le hle, s.memRead_le hle, h.cellAt_eq hfont]

/-- Settles O52: the reset bytes of the font area are the font data, and a step writes only bytes that a program can write,
none of which is in the font area. -/
theorem fontNeverMutated : Obligations.FontNeverMutated :=
  ⟨State.reset_fontIntact, fun _ _ hs h => hs.of_byteWrites (step_byteWrites h)⟩

/-! ### The key wait (R41, R236, R237) -/

/-- A key is captured only in `AwaitingKey`. -/
def State.CapturesInWait (s : State) : Prop := s.captured ≠ none → s.mode ≠ .running

/-- FX0A captures nothing (R235); no other instruction touches the key wait. -/
theorem State.CapturesInWait.exec {i : Instr} {s t : State} (hs : s.CapturesInWait) (h : exec i s = .next t) :
    t.CapturesInWait := by
  by_cases hw : Part.wait ∈ partsOf i
  · cases i with
    | ldVK x =>
      obtain rfl := next_inj.1 h
      exact fun hc => absurd rfl hc
    | _ => simp [partsOf] at hw
  · obtain ⟨hmode, hcap⟩ := (exec_onlyChanges h).2 .wait hw
    simpa only [State.CapturesInWait, hmode, hcap] using hs

/-- The key-wait check takes the captured key as it ends the wait (R238). -/
theorem State.CapturesInWait.keyWaitStep {s : State} (hs : s.CapturesInWait) (x : Reg) :
    (s.keyWaitStep x).CapturesInWait := by
  cases hc : s.captured with
  | none => rwa [State.keyWaitStep_none hc]
  | some k =>
    rw [State.keyWaitStep_some hc]
    exact fun h => absurd rfl h

theorem State.CapturesInWait.instrStep {s t : State} (h : s.instrStep = .next t) (hs : s.CapturesInWait) :
    t.CapturesInWait := by
  rcases s.instrStep_cases with ⟨_, he⟩ | ⟨_, x, _, he⟩ | ⟨_, _, i, _, he⟩ | ⟨_, _, _, he⟩
  · rwa [← next_inj.1 (he.symm.trans h)]
  · exact next_inj.1 (he.symm.trans h) ▸ hs.keyWaitStep x
  · exact hs.exec (he.symm.trans h)
  · obtain rfl := next_inj.1 (he.symm.trans h)
    exact hs

/-- A press is captured in a wait only (R237). -/
theorem State.CapturesInWait.setKey {s : State} (k : Nat) (down : Bool) (hs : s.CapturesInWait) :
    (s.setKey k down).CapturesInWait := by
  obtain ⟨kd, cap, h, hcap⟩ := s.setKey_cases k down
  rw [h]
  rcases hcap with rfl | hwait
  · exact hs
  · exact fun _ => hwait

theorem capturesInWait_keptByActions : KeptByActions State.CapturesInWait where
  dropCall _ hs := hs
  terminate hs := hs
  setKey := State.CapturesInWait.setKey
  loadProgram bytes hs := by
    rcases State.loadProgram_cases _ bytes with ⟨_, h⟩ | ⟨_, _, h⟩ | ⟨_, _, h⟩ <;> rwa [h]
  startScheduler z hs := by
    rcases State.startScheduler_cases _ z with ⟨_, _, h⟩ | ⟨_, h⟩ <;> rwa [h]
  instrStep := State.CapturesInWait.instrStep
  timerTick hs := hs
  countInstr _ _ hs := hs
  countTimer _ _ hs := hs

/-! ### The start of the scheduler (R264, R304) -/

/-- The scheduler has started only after a load, and nothing is counted before it starts. -/
def State.StartsAfterLoad (s : State) : Prop :=
  (s.t0 ≠ none → s.loaded = true) ∧ (s.t0 = none → s.instrDone = 0 ∧ s.timerDone = 0)

/-- What leaves the host's side leaves this. -/
theorem State.StartsAfterLoad.of_sameHostSide {s t : State} (hs : s.StartsAfterLoad) (h : SameHostSide s t) :
    t.StartsAfterLoad := by
  obtain ⟨_, hloaded, ht0, hinstr, htimer, _⟩ := h
  simpa only [State.StartsAfterLoad, hloaded, ht0, hinstr, htimer] using hs

/-- A load marks the machine loaded, or leaves the scheduler's state (R305, R306). -/
theorem State.StartsAfterLoad.loadProgram {s : State} (bytes : List Byte) (hs : s.StartsAfterLoad) :
    (s.loadProgram bytes).StartsAfterLoad := by
  rcases s.loadProgram_cases bytes with ⟨_, h⟩ | ⟨_, _, h⟩ | ⟨_, _, h⟩
  · rwa [h]
  · rwa [h]
  · rw [h]
    exact ⟨fun _ => rfl, hs.2⟩

/-- The start takes effect in a loaded machine only (R264, R304). -/
theorem State.StartsAfterLoad.startScheduler {s : State} (z : Rat) (hs : s.StartsAfterLoad) :
    (s.startScheduler z).StartsAfterLoad := by
  rcases s.startScheduler_cases z with ⟨hloaded, _, h⟩ | ⟨_, h⟩
  · rw [h]
    exact ⟨fun _ => hloaded, nofun⟩
  · rwa [h]

theorem startsAfterLoad_keptByActions : KeptByActions State.StartsAfterLoad where
  dropCall _ hs := hs
  terminate hs := hs
  setKey k down hs := by
    obtain ⟨kd, cap, h, _⟩ := State.setKey_cases _ k down
    rwa [h]
  loadProgram := State.StartsAfterLoad.loadProgram
  startScheduler := State.StartsAfterLoad.startScheduler
  instrStep h hs := hs.of_sameHostSide (State.instrStep_sameHostSide h)
  timerTick hs := hs
  countInstr _ hstarted hs := ⟨hs.1, fun h0 => absurd h0 hstarted⟩
  countTimer _ hstarted hs := ⟨hs.1, fun h0 => absurd h0 hstarted⟩

/-! ### The invariant -/

/-- Settles O51: memory is changed only by writes to addresses that a program can write, and every action keeps the capture of
keys and the start of the scheduler in order. -/
theorem stepKeepsInvariant : Obligations.StepKeepsInvariant := by
  intro s t hs h
  obtain ⟨hwf, hlist, hwait, hstart⟩ := hs
  have hmem := step_byteWrites h
  exact ⟨hmem.wf hwf, hmem.lists_writable hlist, capturesInWait_keptByActions.step h hwait,
    startsAfterLoad_keptByActions.step h hstart⟩

/-! ### A read after a write (R54, R55) -/

/-- A read is of the cell at the clamped address (R54). -/
theorem State.memRead_eq_cellAt_min (s : State) (k : Nat) : s.memRead k = cellAt s.mem (min k 0xFFF) := by
  by_cases hk : k ≤ 0xFFF
  · rw [s.memRead_le hk, Nat.min_eq_left hk]
  · rw [s.memRead_gt hk, Nat.min_eq_right (by omega)]

theorem State.memWrite_of_not_stores {s : State} {a : Nat} (h : ¬ Stores a) (b : Byte) : s.memWrite a b = s :=
  if_neg fun hw => h ((writable_iff a).1 hw)

theorem State.memWrite_eq_setMem (s : State) (a : Nat) (b : Byte) :
    s.memWrite a b = { s with mem := (s.memWrite a b).mem } := by
  unfold State.memWrite
  split <;> rfl

/-- A byte read at any address after a write: a clamped address exists, so the write to it is stored where it is outside the
font area. -/
theorem State.memRead_memWrite_min (s : State) (a k : Nat) (b : Byte) :
    (s.memWrite a b).memRead k = if min k 0xFFF = a ∧ ¬ (0x050 ≤ a ∧ a ≤ 0x09F) then b else s.memRead k := by
  have hstored : (min k 0xFFF = a ∧ writable a = true) ↔ (min k 0xFFF = a ∧ ¬ (0x050 ≤ a ∧ a ≤ 0x09F)) := by
    rw [writable_iff]
    omega
  simp only [State.memRead_eq_cellAt_min, cellAt_memWrite, hstored]

/-- Settles O30: a stored byte is read back through the clamp, a dropped write changes nothing, a write changes memory
alone. -/
theorem readAfterWrite : Obligations.ReadAfterWrite :=
  ⟨State.memRead_memWrite_min, fun _ _ b h => State.memWrite_of_not_stores h b, State.memWrite_eq_setMem⟩

/-! ### The canonical form determines the list (R50) -/

theorem cellAt_of_mem {m : Memory} (h : m.Pairwise (fun c d => c.1 < d.1)) {c : Host.Cell} (hc : c ∈ m) :
    cellAt m c.1 = c.2 := by
  induction m with
  | nil => cases hc
  | cons d rest ih =>
    obtain ⟨hd, hrest⟩ := List.pairwise_cons.1 h
    rcases List.mem_cons.1 hc with rfl | hc
    · exact if_pos rfl
    · have hne : ¬ d.1 = c.1 := (hd c hc).ne
      exact (if_neg hne).trans (ih hrest hc)

/-- A byte that differs from the reset contents is listed. -/
theorem mem_of_cellAt_ne {m : Memory} {a : Nat} (h : cellAt m a ≠ Config.resetByte a) : (a, cellAt m a) ∈ m := by
  induction m with
  | nil => exact absurd rfl h
  | cons d rest ih =>
    unfold cellAt at h ⊢
    split at h
    next hd => simp [← hd]
    next hd => simpa [hd] using .inr (ih h)

/-- A canonical memory lists exactly the bytes that differ from the reset contents. -/
theorem Memory.wf.mem_iff {m : Memory} (h : m.wf) (c : Host.Cell) :
    c ∈ m ↔ cellAt m c.1 = c.2 ∧ c.2 ≠ Config.resetByte c.1 := by
  constructor
  · exact fun hc => ⟨cellAt_of_mem h.1 hc, h.2 c hc⟩
  · rintro ⟨hread, hne⟩
    have hmem := mem_of_cellAt_ne (hread ▸ hne)
    rwa [hread] at hmem

/-- Settles O31: two canonical memories that read alike list the same cells, and a list in rising order is determined by its
members. -/
theorem canonicalMemoriesAreEqualData : Obligations.CanonicalMemoriesAreEqualData := by
  intro m n hm hn hread
  have hanti : Std.Antisymm fun c d : Host.Cell => c.1 < d.1 := ⟨fun _ _ hlt hgt => absurd hgt hlt.asymm⟩
  have hirr : Std.Irrefl fun c d : Host.Cell => c.1 < d.1 := ⟨fun _ => lt_irrefl _⟩
  refine hm.1.eq_of_mem_iff hn.1 fun c => ?_
  rw [hm.mem_iff, hn.mem_iff, hread]

end Sys2Proof.Machine
end

section
/-! PROOFS. The encoding (30_encoding.md): O1 and O2, decoding and encoding undo each other; O3, the opcode table; O4, the
unmapped words (R93); O5, words written out. -/

namespace Sys2Proof

/-! ### Decoding an encoded word (R81, R87 to R92) -/

/-- The primary nibble of the layout selects the group, and in it the trailing nibble or byte, where one is fixed, the
instruction; the other fields are the operands. -/
theorem decodeWord?_encode (i : Instr) : decodeWord? (encode i) = some i := by
  cases i with
  | cls | ret => decide
  | jp | call | ldI | jpV0 => simp [encode, decodeWord?]
  | seVB | sneVB | ldVB | addVB | rnd => simp [encode, decodeWord?]
  | drw => simp [encode, decodeWord?]
  | seVV | sneVV => simp [encode, decodeWord?, onlyIfN4Zero]
  | ldVV | orVV | andVV | xorVV | addVV | subVV | shrV | subnVV | shlV => simp [encode, decodeWord?, decodeGroup8]
  | skp | sknp => simp [encode, decodeWord?, decodeGroupE]
  | ldVDT | ldVK | ldDTV | ldSTV | addIV | ldFV | ldBV | ldMIV | ldVMI => simp [encode, decodeWord?, decodeGroupF]

theorem decodeWord_encode (i : Instr) : decodeWord (encode i) = .ok i :=
  (decodeWord_ok_iff _ i).2 (decodeWord?_encode i)

theorem decodeBytes_encodeBytes (i : Instr) : decodeBytes (encodeBytes i) = .ok (i, []) := by
  simp [encodeBytes, decodeBytes, decodeWord_encode]

/-- Settles O1: each layout keeps its fields apart, and the two bytes are the halves of the word. -/
theorem decodeOfEncodeIsIdentity : Obligations.DecodeOfEncodeIsIdentity :=
  fun i => ⟨decodeWord_encode i, decodeBytes_encodeBytes i⟩

/-! ### A word put together again from its fields (R80) -/

theorem encodeNNN_of_fields {w : Word} {p : BitVec 4} (hp : fieldN1 w = p) : encodeNNN p (fieldNNN w) = w := by
  rw [← hp, encodeNNN_fields]

theorem encodeXNN_of_fields {w : Word} {p : BitVec 4} (hp : fieldN1 w = p) :
    encodeXNN p (fieldX w) (fieldNN w) = w := by
  rw [← hp, encodeXNN_fields]

theorem encodeXYN_of_fields {w : Word} {p n : BitVec 4} (hp : fieldN1 w = p) (hn : fieldN w = n) :
    encodeXYN p (fieldX w) (fieldY w) n = w := by
  rw [← hp, ← hn, encodeXYN_fields]

/-- The layout `X` with a fixed trailing byte (groups 0xE and 0xF). -/
theorem encodeX_of_fields {w : Word} {p : BitVec 4} {nn : Byte} (hp : fieldN1 w = p) (hnn : fieldNN w = nn) :
    encodeXNN p (fieldX w) nn = w := by
  rw [← hnn, encodeXNN_of_fields hp]

/-! ### Encoding a decoded word, group by group -/

theorem encode_of_decodeGroup0 {w : Word} {i : Instr} (h : decodeGroup0 w = some i) : encode i = w := by
  unfold decodeGroup0 at h
  split_ifs at h with h1 h2
  · cases h; exact h1.symm
  · cases h; exact h2.symm

theorem encode_of_onlyIfN4Zero {w : Word} {i j : Instr} (h : onlyIfN4Zero w j = some i)
    (hj : fieldN w = 0#4 → encode j = w) : encode i = w := by
  unfold onlyIfN4Zero at h
  split_ifs at h with hn
  cases h
  exact hj hn

theorem encode_of_decodeGroup8 {w : Word} {i : Instr} (hp : fieldN1 w = 0x8#4) (h : decodeGroup8 w = some i) :
    encode i = w := by
  unfold decodeGroup8 at h
  split at h
  case h_10 => cases h
  all_goals
    next hn =>
      cases h
      exact encodeXYN_of_fields hp (BitVec.eq_of_toNat_eq hn)

theorem encode_of_decodeGroupE {w : Word} {i : Instr} (hp : fieldN1 w = 0xE#4) (h : decodeGroupE w = some i) :
    encode i = w := by
  unfold decodeGroupE at h
  split_ifs at h with h1 h2 <;> cases h
  · exact encodeX_of_fields hp h1
  · exact encodeX_of_fields hp h2

theorem encode_of_decodeGroupF {w : Word} {i : Instr} (hp : fieldN1 w = 0xF#4) (h : decodeGroupF w = some i) :
    encode i = w := by
  unfold decodeGroupF at h
  split_ifs at h <;> cases h <;> exact encodeX_of_fields hp ‹_›

/-- The layout of the instruction that a primary nibble stands for puts the word together again (R87 to R92). -/
theorem encode_of_decodeWord? {w : Word} {i : Instr} (h : decodeWord? w = some i) : encode i = w := by
  unfold decodeWord? at h
  split at h
  case h_1 => exact encode_of_decodeGroup0 h
  case h_2 hp | h_3 hp | h_11 hp | h_12 hp => cases h; exact encodeNNN_of_fields (BitVec.eq_of_toNat_eq hp)
  case h_4 hp | h_5 hp | h_7 hp | h_8 hp | h_13 hp => cases h; exact encodeXNN_of_fields (BitVec.eq_of_toNat_eq hp)
  case h_6 hp | h_10 hp => exact encode_of_onlyIfN4Zero h (encodeXYN_of_fields (BitVec.eq_of_toNat_eq hp))
  case h_9 hp => exact encode_of_decodeGroup8 (BitVec.eq_of_toNat_eq hp) h
  case h_14 hp => cases h; exact encodeXYN_of_fields (BitVec.eq_of_toNat_eq hp) rfl
  case h_15 hp => exact encode_of_decodeGroupE (BitVec.eq_of_toNat_eq hp) h
  case h_16 hp => exact encode_of_decodeGroupF (BitVec.eq_of_toNat_eq hp) h
  case h_17 => cases h

/-- An instruction has one word, and that word decodes to it alone. -/
theorem decodeWord_ok_iff_encode (w : Word) (i : Instr) : decodeWord w = .ok i ↔ encode i = w := by
  constructor
  · exact fun h => encode_of_decodeWord? ((decodeWord_ok_iff w i).1 h)
  · rintro rfl
    exact decodeWord_encode i

/-- Settles O2: in each group the layout's fields, with the nibbles that the group has fixed, are the whole word. -/
theorem encodeOfDecodeIsIdentity : Obligations.EncodeOfDecodeIsIdentity :=
  fun w i => (decodeWord_ok_iff_encode w i).1

/-! ### The opcode table (R96, R113) -/

/-- The instruction of the same row as `i`, with its operands read from the fields of `w` (R81). -/
def Instr.readFields (i : Instr) (w : Word) : Instr :=
  match i with
  | .cls => .cls
  | .ret => .ret
  | .jp _ => .jp (fieldNNN w)
  | .call _ => .call (fieldNNN w)
  | .seVB _ _ => .seVB (fieldX w) (fieldNN w)
  | .sneVB _ _ => .sneVB (fieldX w) (fieldNN w)
  | .seVV _ _ => .seVV (fieldX w) (fieldY w)
  | .ldVB _ _ => .ldVB (fieldX w) (fieldNN w)
  | .addVB _ _ => .addVB (fieldX w) (fieldNN w)
  | .ldVV _ _ => .ldVV (fieldX w) (fieldY w)
  | .orVV _ _ => .orVV (fieldX w) (fieldY w)
  | .andVV _ _ => .andVV (fieldX w) (fieldY w)
  | .xorVV _ _ => .xorVV (fieldX w) (fieldY w)
  | .addVV _ _ => .addVV (fieldX w) (fieldY w)
  | .subVV _ _ => .subVV (fieldX w) (fieldY w)
  | .shrV _ _ => .shrV (fieldX w) (fieldY w)
  | .subnVV _ _ => .subnVV (fieldX w) (fieldY w)
  | .shlV _ _ => .shlV (fieldX w) (fieldY w)
  | .sneVV _ _ => .sneVV (fieldX w) (fieldY w)
  | .ldI _ => .ldI (fieldNNN w)
  | .jpV0 _ => .jpV0 (fieldNNN w)
  | .rnd _ _ => .rnd (fieldX w) (fieldNN w)
  | .drw _ _ _ => .drw (fieldX w) (fieldY w) (fieldN w)
  | .skp _ => .skp (fieldX w)
  | .sknp _ => .sknp (fieldX w)
  | .ldVDT _ => .ldVDT (fieldX w)
  | .ldVK _ => .ldVK (fieldX w)
  | .ldDTV _ => .ldDTV (fieldX w)
  | .ldSTV _ => .ldSTV (fieldX w)
  | .addIV _ => .addIV (fieldX w)
  | .ldFV _ => .ldFV (fieldX w)
  | .ldBV _ => .ldBV (fieldX w)
  | .ldMIV _ => .ldMIV (fieldX w)
  | .ldVMI _ => .ldVMI (fieldX w)

@[simp] theorem rowOf_readFields (i : Instr) (w : Word) : rowOf (i.readFields w) = rowOf i := by
  cases i <;> rfl

/-- Every instruction's row is in the table and matches its word: the per-instruction family, put together. -/
theorem encodeRow_statement (i : Instr) : Laws.EncodeRow.Statement i := by
  cases i with
  | cls => exact Laws.EncodeRow.cls
  | ret => exact Laws.EncodeRow.ret
  | jp => exact Laws.EncodeRow.jp _
  | call => exact Laws.EncodeRow.call _
  | seVB => exact Laws.EncodeRow.seVB _ _
  | sneVB => exact Laws.EncodeRow.sneVB _ _
  | seVV => exact Laws.EncodeRow.seVV _ _
  | ldVB => exact Laws.EncodeRow.ldVB _ _
  | addVB => exact Laws.EncodeRow.addVB _ _
  | ldVV => exact Laws.EncodeRow.ldVV _ _
  | orVV => exact Laws.EncodeRow.orVV _ _
  | andVV => exact Laws.EncodeRow.andVV _ _
  | xorVV => exact Laws.EncodeRow.xorVV _ _
  | addVV => exact Laws.EncodeRow.addVV _ _
  | subVV => exact Laws.EncodeRow.subVV _ _
  | shrV => exact Laws.EncodeRow.shrV _ _
  | subnVV => exact Laws.EncodeRow.subnVV _ _
  | shlV => exact Laws.EncodeRow.shlV _ _
  | sneVV => exact Laws.EncodeRow.sneVV _ _
  | ldI => exact Laws.EncodeRow.ldI _
  | jpV0 => exact Laws.EncodeRow.jpV0 _
  | rnd => exact Laws.EncodeRow.rnd _ _
  | drw => exact Laws.EncodeRow.drw _ _ _
  | skp => exact Laws.EncodeRow.skp _
  | sknp => exact Laws.EncodeRow.sknp _
  | ldVDT => exact Laws.EncodeRow.ldVDT _
  | ldVK => exact Laws.EncodeRow.ldVK _
  | ldDTV => exact Laws.EncodeRow.ldDTV _
  | ldSTV => exact Laws.EncodeRow.ldSTV _
  | addIV => exact Laws.EncodeRow.addIV _
  | ldFV => exact Laws.EncodeRow.ldFV _
  | ldBV => exact Laws.EncodeRow.ldBV _
  | ldMIV => exact Laws.EncodeRow.ldMIV _
  | ldVMI => exact Laws.EncodeRow.ldVMI _

theorem fieldN1_of_maskF000 {w : Word} {p : BitVec 4} (h : w &&& 0xF000#16 = encodeXYN p 0 0 0#4) : fieldN1 w = p := by
  have hx : nibbleBits 8 (encodeXYN p 0 0 0#4) = 0#4 := congrArg regBits (fieldX_encodeXYN p 0 0 0#4)
  have hy : nibbleBits 4 (encodeXYN p 0 0 0#4) = 0#4 := congrArg regBits (fieldY_encodeXYN p 0 0 0#4)
  simpa using (maskF000 w _ hx hy (fieldN_encodeXYN p 0 0 0#4)).1 h

theorem encodeXYN_of_maskF00F {w : Word} {p n : BitVec 4} (h : w &&& 0xF00F#16 = encodeXYN p 0 0 n) :
    encodeXYN p (fieldX w) (fieldY w) n = w := by
  have hx : nibbleBits 8 (encodeXYN p 0 0 n) = 0#4 := congrArg regBits (fieldX_encodeXYN p 0 0 n)
  have hy : nibbleBits 4 (encodeXYN p 0 0 n) = 0#4 := congrArg regBits (fieldY_encodeXYN p 0 0 n)
  obtain ⟨hp, hn⟩ := (maskF00F w _ hx hy).1 h
  rw [fieldN1_encodeXYN] at hp
  rw [fieldN_encodeXYN] at hn
  exact encodeXYN_of_fields hp hn

theorem encodeX_of_maskF0FF {w : Word} {p : BitVec 4} {nn : Byte} (h : w &&& 0xF0FF#16 = encodeXNN p 0 nn) :
    encodeXNN p (fieldX w) nn = w := by
  have hx : nibbleBits 8 (encodeXNN p 0 nn) = 0#4 := congrArg regBits (fieldX_encodeXNN p 0 nn)
  obtain ⟨hp, hnn⟩ := (maskF0FF w _ hx).1 h
  rw [fieldN1_encodeXNN] at hp
  rw [fieldNN_encodeXNN] at hnn
  exact encodeX_of_fields hp hnn

/-- A word that a row matches is the encoding of its own fields: the mask fixes exactly what the layout does not read. -/
theorem encode_readFields {w : Word} {i : Instr} (h : w &&& (rowOf i).mask = (rowOf i).pattern) :
    encode (i.readFields w) = w := by
  cases i with
  | cls | ret => exact h.symm.trans BitVec.and_allOnes
  | jp | call | ldI | jpV0 => exact encodeNNN_of_fields (fieldN1_of_maskF000 h)
  | seVB | sneVB | ldVB | addVB | rnd => exact encodeXNN_of_fields (fieldN1_of_maskF000 h)
  | drw => exact encodeXYN_of_fields (fieldN1_of_maskF000 h) rfl
  | seVV | sneVV | ldVV | orVV | andVV | xorVV | addVV | subVV | shrV | subnVV | shlV => exact encodeXYN_of_maskF00F h
  | skp | sknp | ldVDT | ldVK | ldDTV | ldSTV | addIV | ldFV | ldBV | ldMIV | ldVMI => exact encodeX_of_maskF0FF h

/-- The words of an instruction's row are exactly those that decode to that row's instruction (R113). For the instructions'
own encodings this says, at `.jp 0` for one, `HasEncoding 0xF000#16 0x1000#16 fun w => .jp (fieldNNN w)`. -/
theorem hasEncoding_rowOf (i : Instr) : Machine.HasEncoding (rowOf i).mask (rowOf i).pattern i.readFields := by
  intro w
  rw [decodeWord_ok_iff_encode]
  constructor
  · intro h
    obtain ⟨_, hmatch⟩ := encodeRow_statement (i.readFields w)
    rw [h, rowOf_readFields] at hmatch
    exact beq_iff_eq.1 hmatch
  · exact encode_readFields

theorem rowMatches_rowOf_iff (w : Word) (i : Instr) :
    rowMatches w (rowOf i) = true ↔ decodeWord w = .ok (i.readFields w) :=
  beq_iff_eq.trans (hasEncoding_rowOf i w).symm

theorem mem_opcodeTable {r : OpcodeRow} (h : r ∈ opcodeTable) : ∃ i, rowOf i = r := by
  obtain ⟨i, _, hi⟩ := List.mem_map.1 h
  exact ⟨i, hi⟩

theorem opcodeTable_nodup : opcodeTable.Nodup := by decide

/-- A word that decodes matches the row of its instruction and, as it decodes to one instruction, no other row. -/
theorem rowMatches_iff_of_ok {w : Word} {i : Instr} (hw : decodeWord w = .ok i) {r : OpcodeRow} (hr : r ∈ opcodeTable) :
    rowMatches w r = true ↔ r = rowOf i := by
  constructor
  · intro hm
    obtain ⟨j, rfl⟩ := mem_opcodeTable hr
    have hj := (rowMatches_rowOf_iff w j).1 hm
    obtain rfl : i = j.readFields w := Except.ok.inj (hw.symm.trans hj)
    exact (rowOf_readFields j w).symm
  · rintro rfl
    obtain ⟨_, hm⟩ := encodeRow_statement i
    rwa [(decodeWord_ok_iff_encode w i).1 hw] at hm

theorem filter_rowMatches_of_ok {w : Word} {i : Instr} (hw : decodeWord w = .ok i) :
    opcodeTable.filter (rowMatches w) = [rowOf i] := by
  obtain ⟨hmem, _⟩ := encodeRow_statement i
  have hfilter : opcodeTable.filter (rowMatches w) = opcodeTable.filter (· == rowOf i) :=
    List.filter_congr fun r hr => Bool.eq_iff_iff.2 ((rowMatches_iff_of_ok hw hr).trans beq_iff_eq.symm)
  rw [hfilter, List.filter_beq, List.count_eq_one_of_mem opcodeTable_nodup hmem]
  rfl

/-- A word that no instruction stands for matches no row: a matching row would read an instruction from it. -/
theorem filter_rowMatches_of_error {w : Word} {e : DecodeError} (hw : decodeWord w = .error e) :
    opcodeTable.filter (rowMatches w) = [] := by
  refine List.filter_eq_nil_iff.2 fun r hr hm => ?_
  obtain ⟨j, rfl⟩ := mem_opcodeTable hr
  have hj := (rowMatches_rowOf_iff w j).1 hm
  cases hw.symm.trans hj

/-- Settles O3: the decoder answers with an instruction or refuses the word by name, and the rows follow it. -/
theorem decoderFollowsOpcodeTable : Obligations.DecoderFollowsOpcodeTable := by
  intro w
  cases hw : decodeWord w with
  | ok i => exact .inl ⟨i, rfl, filter_rowMatches_of_ok hw⟩
  | error e =>
    obtain ⟨_, rfl⟩ := (decodeWord_error_iff w e).1 hw
    exact .inr ⟨rfl, filter_rowMatches_of_error hw⟩

/-! ### The unmapped words (R93) -/

theorem nibbleAt_12 (w : Word) : nibbleAt 12 w = (fieldN1 w).toNat := rfl

theorem nibbleAt_0 (w : Word) : nibbleAt 0 w = (fieldN w).toNat := rfl

theorem trailingByte_eq (w : Word) : trailingByte w = (fieldNN w).toNat := rfl

/-- The second level of group 0x0 (R88). -/
theorem isSome_decodeGroup0 (w : Word) : (decodeGroup0 w).isSome = group0Mapped w := by
  unfold decodeGroup0 group0Mapped
  split_ifs <;> simp [*]

/-- The condition of groups 0x5 and 0x9 (R92). -/
theorem isSome_onlyIfN4Zero (w : Word) (i : Instr) : (onlyIfN4Zero w i).isSome = (nibbleAt 0 w == 0) := by
  unfold onlyIfN4Zero
  simp only [nibbleAt_0, ← BitVec.toNat_inj]
  split_ifs <;> simp_all

/-- The second level of group 0x8 (R89). -/
theorem isSome_decodeGroup8 (w : Word) : (decodeGroup8 w).isSome = group8Mapped w := by
  unfold decodeGroup8 group8Mapped
  rw [nibbleAt_0]
  split <;> simp_all

/-- The second level of group 0xE (R90). -/
theorem isSome_decodeGroupE (w : Word) : (decodeGroupE w).isSome = groupEMapped w := by
  unfold decodeGroupE groupEMapped
  simp only [trailingByte_eq, ← BitVec.toNat_inj]
  split_ifs <;> simp_all

/-- The second level of group 0xF (R91). -/
theorem isSome_decodeGroupF (w : Word) : (decodeGroupF w).isSome = groupFMapped w := by
  unfold decodeGroupF groupFMapped
  simp only [trailingByte_eq, ← BitVec.toNat_inj]
  split_ifs <;> simp_all

/-- The decoder gives an instruction exactly where the well-formedness check passes, group by group. -/
theorem isSome_decodeWord? (w : Word) : (decodeWord? w).isSome = wordMapped w := by
  have hlt : nibbleAt 12 w < 16 := (fieldN1 w).isLt
  unfold decodeWord? wordMapped
  rw [← nibbleAt_12]
  split
  case h_1 hp => simp [hp, isSome_decodeGroup0]
  case h_6 hp | h_10 hp => simp [hp, isSome_onlyIfN4Zero]
  case h_9 hp => simp [hp, isSome_decodeGroup8]
  case h_15 hp => simp [hp, isSome_decodeGroupE]
  case h_16 hp => simp [hp, isSome_decodeGroupF]
  case h_17 => simp only [imp_false] at *; omega
  all_goals next hp => simp [hp]

theorem wordMapped_iff (w : Word) : wordMapped w = true ↔ ∃ i, decodeWord w = .ok i := by
  simp only [← isSome_decodeWord?, Option.isSome_iff_exists, decodeWord_ok_iff]

theorem wordMapped_eq_false_iff (w : Word) : wordMapped w = false ↔ decodeWord w = .error (.unmapped w) := by
  simp [← isSome_decodeWord?, decodeWord_error_iff]

/-- The nibbles that group 0x8 leaves out. -/
theorem group8Mapped_eq_false_iff (w : Word) :
    group8Mapped w = false ↔ nibbleAt 0 w ∈ [0x8, 0x9, 0xA, 0xB, 0xC, 0xD, 0xF] := by
  have hlt : nibbleAt 0 w < 16 := (fieldN w).isLt
  simp [group8Mapped]
  omega

/-- Settles O4: the decoder refuses the words that the check refuses, and in each group the check refuses the words of R93's
row for the group. -/
theorem unmappedWordsAreThoseListed : Obligations.UnmappedWordsAreThoseListed := by
  refine fun w => ⟨wordMapped_iff w, ?_⟩
  rw [← wordMapped_eq_false_iff]
  unfold wordMapped
  split_ifs with h0 h59 h8 hE hF
  · simp [h0, group0Mapped]
  · rcases h59 with h | h <;> simp [h]
  · simp [h8, group8Mapped_eq_false_iff]
  · simp [hE, groupEMapped]
  · simp [hF, groupFMapped]
  · obtain ⟨h5, h9⟩ := not_or.1 h59
    simp [h0, h5, h8, h9, hE, hF]

/-- Settles O5: each word, written out, is the encoding of its instruction, so the round trip decodes it. -/
theorem writtenOutWordsDecode : Obligations.WrittenOutWordsDecode :=
  ⟨decodeWord_encode .cls, decodeWord_encode .ret, decodeWord_encode (.seVB 3 0x42#8),
    decodeWord_encode (.ldVB 10 0xFF#8), decodeWord_encode (.jp 0x234#12), decodeWord_encode (.seVV 1 2),
    decodeWord_encode (.shrV 2 3), decodeWord_encode (.ldI 0x2F0#12), decodeWord_encode (.drw 0 1 5#4),
    decodeWord_encode (.skp 1), decodeWord_encode (.ldVDT 5)⟩

end Sys2Proof
end

section
/-! PROOFS. The step (40_cycle.md): O7, the fetched word (R111); O6, the decoded instruction is run (R113); O8, an unmapped
word is a no-op with a diagnostic (R114); O9, no step aborts (R117). -/

namespace Sys2Proof.Machine

/-! ### The fetched word (R111, R54) -/

/-- Settles O7: the fetch reads two bytes, high byte first, and each read is of the cell at the clamped address. -/
theorem fetchReadsHighByteFirst : Obligations.FetchReadsHighByteFirst := by
  intro s
  rw [s.fetchWord_toNat, s.memRead_eq_cellAt_min s.pc.toNat, s.memRead_eq_cellAt_min (s.pc.toNat + 1)]

/-! ### Fetch and execute (R110, R113, R114) -/

theorem State.executeWord_of_ok (s : State) {w : Word} {i : Instr} (h : decodeWord w = .ok i) :
    s.executeWord w = exec i s := by
  simp only [State.executeWord, h]

theorem State.executeWord_of_error (s : State) {w : Word} {e : DecodeError} (h : decodeWord w = .error e) :
    s.executeWord w = .next (s.invalidOpcode w) := by
  simp only [State.executeWord, h]

/-- In `Running` the next step of a ticking machine executes the word at `PC`, with nothing around it. -/
theorem step_of_ticking_running {s : State} (h : s.Ticking) (hm : s.mode = .running) :
    step s = s.executeWord s.fetchWord := by
  have ⟨_, _, _, hloaded⟩ := h
  rw [step_of_ticking h]
  simp only [State.instrStep, hloaded, hm, if_true]

/-- Settles O6: executing a word that decodes is `exec` of its instruction. -/
theorem stepRunsDecodedInstruction : Obligations.StepRunsDecodedInstruction := by
  intro s i h hm hd
  rw [step_of_ticking_running h hm, s.executeWord_of_ok hd]

/-- The advance and then one diagnostic: of the parts that instructions change, the diagnostic output alone (R252). -/
theorem State.invalidOpcode_onlyChanges (s : State) (w : Word) : OnlyChanges [.diags] s (s.invalidOpcode w) :=
  (OnlyChanges.of_advance [.diags] s).emit List.mem_cons_self .invalidOpcode s.pc w

/-- Settles O8: executing an unmapped word answers `State.invalidOpcode`, which is `PC0 + 2` and one diagnostic. -/
theorem unmappedWordIsNoOpWithDiagnostic : Obligations.UnmappedWordIsNoOpWithDiagnostic := by
  intro s h hm hd
  have hstep : step s = .next (s.invalidOpcode s.fetchWord) := by
    rw [step_of_ticking_running h hm, s.executeWord_of_error hd]
  exact ⟨s.invalidOpcode s.fetchWord, hstep, rfl, rfl, s.invalidOpcode_onlyChanges s.fetchWord⟩

/-! ### Every action answers a next state (R117, R250) -/

/-- RET is the one instruction with a choice of outcome: it answers with a return address and without (R130, R253). -/
theorem execRet_answers (s : State) : ∃ t, execRet s = .next t := by
  unfold execRet
  split
  · exact ⟨_, rfl⟩
  · exact ⟨_, rfl⟩

/-- Every instruction answers a next state; all but RET are written as one, whatever the operands. -/
theorem exec_answers (i : Instr) (s : State) : ∃ t, exec i s = .next t := by
  cases i with
  | ret => exact execRet_answers s
  | _ => exact ⟨_, rfl⟩

/-- One step of the core answers in each of its cases, the unmapped words included. -/
theorem State.instrStep_answers (s : State) : ∃ t, s.instrStep = .next t := by
  rcases s.instrStep_cases with ⟨_, hs⟩ | ⟨_, x, _, hs⟩ | ⟨_, _, i, _, hs⟩ | ⟨_, _, _, hs⟩
  · exact ⟨_, hs⟩
  · exact ⟨_, hs⟩
  · rw [hs]
    exact exec_answers i s
  · exact ⟨_, hs⟩

/-- Two actions in a row answer where each of them does. -/
theorem andThen_answers {o : Host.Outcome State Fault Refusal} {f : State → Host.Outcome State Fault Refusal}
    (ho : ∃ u, o = .next u) (hf : ∀ u, ∃ t, f u = .next t) : ∃ t, andThen o f = .next t := by
  obtain ⟨u, hu⟩ := ho
  obtain ⟨t, ht⟩ := hf u
  exact ⟨t, andThen_next.2 ⟨u, hu, ht⟩⟩

theorem State.stepIfDue_answers (s : State) (now : Rat) : ∃ t, s.stepIfDue now = .next t := by
  unfold State.stepIfDue
  split
  · exact ⟨s, rfl⟩
  · split
    · exact andThen_answers s.instrStep_answers fun _ => ⟨_, rfl⟩
    · exact ⟨s, rfl⟩

theorem State.pass_answers (s : State) (now : Rat) (keys : List KeyEvent) : ∃ t, s.pass now keys = .next t :=
  andThen_answers ((s.applyKeys keys).stepIfDue_answers now) fun _ => ⟨_, rfl⟩

theorem State.instrTick_answers (s : State) : ∃ t, s.instrTick = .next t := by
  unfold State.instrTick
  split
  · exact s.instrStep_answers
  · exact ⟨s, rfl⟩

/-- Serving a call of the host answers a next state, refused at the interface or not: the calls that make no instruction step
are written as one. -/
theorem State.serve_answers (s : State) (c : HostCall) : ∃ t, s.serve c = .next t := by
  cases c with
  | instrTick => exact s.instrTick_answers
  | step now => exact s.stepIfDue_answers now
  | pass now keys => exact s.pass_answers now keys
  | _ => exact ⟨_, rfl⟩

/-- One step of the machine answers after termination, where a call is pending, and where none is. -/
theorem step_answers (s : State) : ∃ t, step s = .next t := by
  rcases step_cases s with ⟨_, hs⟩ | ⟨_, c, rest, _, hs⟩ | ⟨_, _, hs⟩
  · exact ⟨s, hs⟩
  · rw [hs]
    exact State.serve_answers _ c
  · rw [hs]
    exact s.instrTick_answers

/-- Settles O9: the machine's step, the core's step and every instruction answer from every state. -/
theorem noStepAborts : Obligations.NoStepAborts :=
  ⟨step_answers, State.instrStep_answers, exec_answers⟩

end Sys2Proof.Machine
end

section
/-! PROOFS. Control transfer (41_flow.md): O11, the return (R130, R253); O12, the jumps by address and the call (R131, R132,
R137); O13, a return undoes a call; O14 and O15, the skips (R133 to R136). -/

namespace Sys2Proof.Machine

/-! ### Frames -/

theorem OnlyChanges.advance {ps : List Part} {s t : State} (h : OnlyChanges ps s t) : OnlyChanges ps s t.advance :=
  h.jump (t.pc + 2#16)

theorem OnlyChanges.push {ps : List Part} {s t : State} (h : OnlyChanges ps s t) (hs : Part.stack ∈ ps) (a : Word) :
    OnlyChanges ps s (t.push a) :=
  h.setStack hs (t.stack ++ [a])

theorem OnlyChanges.dropTop {ps : List Part} {s t : State} (h : OnlyChanges ps s t) (hs : Part.stack ∈ ps) :
    OnlyChanges ps s t.dropTop :=
  h.setStack hs t.stack.dropLast

/-- A part that has come back to what it was need not be listed. -/
theorem OnlyChanges.of_same {p : Part} {ps : List Part} {s t : State} (h : OnlyChanges (p :: ps) s t) (hp : p.Same s t) :
    OnlyChanges ps s t := by
  obtain ⟨hhost, hparts⟩ := h
  refine ⟨hhost, fun q hq => ?_⟩
  by_cases hqp : q = p
  · exact hqp ▸ hp
  · exact hparts q fun hmem => (List.mem_cons.1 hmem).elim hqp hq

/-! ### The return (R130, R253) -/

/-- With a return address on the stack, RET goes to it and takes it off. -/
theorem exec_ret_of_stack {s : State} {rest : List Word} {a : Word} (h : s.stack = rest ++ [a]) :
    exec .ret s = .next (s.advance.dropTop.jump a) := by
  simp [exec, execRet, h]

/-- With an empty stack, RET advances and reports it. -/
theorem exec_ret_of_empty {s : State} (h : s.stack = []) :
    exec .ret s = .next (s.advance.emit .stackUnderflow s.pc 0x00EE#16) := by
  simp [exec, execRet, h]

/-- Settles O11: the encoding is RET's row of the opcode table, and the two cases are those of the stack. -/
theorem retPopsOrReportsUnderflow : Obligations.RetPopsOrReportsUnderflow := by
  refine ⟨hasEncoding_rowOf .ret, fun s => ⟨fun rest a h => ?_, fun h => ?_⟩⟩
  · have hrest : (s.advance.dropTop.jump a).stack = rest := by simp [h]
    exact ⟨_, exec_ret_of_stack h, rfl, hrest,
      ((OnlyChanges.of_advance [.stack] s).dropTop List.mem_cons_self).jump a⟩
  · exact ⟨_, exec_ret_of_empty h, rfl, h, rfl,
      (OnlyChanges.of_advance [.diags] s).emit List.mem_cons_self .stackUnderflow s.pc 0x00EE#16⟩

/-! ### The jumps by address and the call (R131, R132, R137) -/

@[simp] theorem addressOperand_toNat (nnn : BitVec 12) : (addressOperand nnn).toNat = nnn.toNat :=
  BitVec.toNat_setWidth_of_le (by decide)

/-- The sum of a 12-bit address and a byte is below 65536: the target of BNNN is not wrapped. -/
@[simp] theorem computedTarget_toNat (nnn : BitVec 12) (v0 : Byte) :
    (computedTarget nnn v0).toNat = nnn.toNat + v0.toNat := by
  have hnnn := nnn.isLt
  have hv0 := v0.isLt
  simp only [computedTarget, BitVec.toNat_add, BitVec.toNat_setWidth]
  omega

theorem State.advance_pc_toNat (s : State) : s.advance.pc.toNat = (s.pc.toNat + 2) % 65536 :=
  BitVec.toNat_add s.pc 2#16

theorem exec_call (nnn : BitVec 12) (s : State) :
    exec (.call nnn) s = .next ((s.advance.push s.advance.pc).jump (addressOperand nnn)) := rfl

/-- A call changes the stack only, besides `PC` (R132). -/
theorem State.call_onlyChanges (s : State) (a : Word) :
    OnlyChanges [.stack] s ((s.advance.push s.advance.pc).jump a) :=
  ((OnlyChanges.of_advance [.stack] s).push List.mem_cons_self s.advance.pc).jump a

/-- Settles O12: each target is the operand as a number, and the call pushes the advanced `PC`. -/
theorem jumpsSetPc : Obligations.JumpsSetPc := by
  refine ⟨hasEncoding_rowOf (.jp 0), hasEncoding_rowOf (.call 0), hasEncoding_rowOf (.jpV0 0), fun nnn s => ⟨?_, ?_, ?_⟩⟩
  · exact ⟨_, rfl, addressOperand_toNat nnn, (OnlyChanges.of_advance [] s).jump _⟩
  · exact ⟨_, exec_call nnn s, addressOperand_toNat nnn, ⟨s.advance.pc, rfl, s.advance_pc_toNat⟩, s.call_onlyChanges _⟩
  · exact ⟨_, rfl, computedTarget_toNat nnn (s.getV 0), (OnlyChanges.of_advance [] s).jump _⟩

/-- Settles O13: the return takes off the address that the call pushed, so that the stack, the one part that either changes,
is as it was. -/
theorem returnUndoesCall : Obligations.ReturnUndoesCall := by
  intro nnn s
  have hret := exec_ret_of_stack (s := (s.advance.push s.advance.pc).jump (addressOperand nnn)) rfl
  have hstack : (s.stack ++ [s.advance.pc]).dropLast = s.stack := List.dropLast_concat
  have hframe := ((s.call_onlyChanges (addressOperand nnn)).advance.dropTop List.mem_cons_self).jump s.advance.pc
  exact ⟨_, _, exec_call nnn s, hret, s.advance_pc_toNat, hstack, hframe.of_same hstack⟩

/-! ### The skips (R133 to R136, R138) -/

/-- The advance and then a skip, as numbers: 4 on `PC` when the condition holds, else 2, in one sum modulo 65536. -/
theorem State.skipIf_advance_pc_toNat (s : State) (c : Bool) :
    (s.advance.skipIf c).pc.toNat = (s.pc.toNat + if c then 4 else 2) % 65536 := by
  cases c with
  | false => exact s.advance_pc_toNat
  | true =>
    calc s.advance.advance.pc.toNat
      _ = (s.advance.pc.toNat + 2) % 65536 := s.advance.advance_pc_toNat
      _ = ((s.pc.toNat + 2) % 65536 + 2) % 65536 := by rw [s.advance_pc_toNat]
      _ = (s.pc.toNat + 4) % 65536 := Nat.mod_add_mod _ _ _

/-- A skip on equal bytes. -/
theorem State.skipIf_beq_pc_toNat (s : State) (a b : Byte) :
    (s.advance.skipIf (a == b)).pc.toNat = (s.pc.toNat + if a = b then 4 else 2) % 65536 := by
  simp only [s.skipIf_advance_pc_toNat, beq_iff_eq]

/-- A skip on different bytes. -/
theorem State.skipIf_bne_pc_toNat (s : State) (a b : Byte) :
    (s.advance.skipIf (a != b)).pc.toNat = (s.pc.toNat + if a = b then 2 else 4) % 65536 := by
  simp only [s.skipIf_advance_pc_toNat, bne_iff_ne, ne_eq, ite_not]

/-- A skip, taken or not, changes nothing but `PC`. -/
theorem State.skipIf_onlyChanges (s : State) (c : Bool) : OnlyChanges [] s (s.advance.skipIf c) :=
  (OnlyChanges.of_advance [] s).skipIf c

/-- Settles O14: both are the skip of R138, on `V[X]` and NN. -/
theorem immediateSkips : Obligations.ImmediateSkips := by
  refine ⟨hasEncoding_rowOf (.seVB 0 0), hasEncoding_rowOf (.sneVB 0 0), fun x nn s => ⟨?_, ?_⟩⟩
  · exact ⟨_, rfl, s.skipIf_beq_pc_toNat (s.getV x) nn, s.skipIf_onlyChanges _⟩
  · exact ⟨_, rfl, s.skipIf_bne_pc_toNat (s.getV x) nn, s.skipIf_onlyChanges _⟩

/-- Groups 0x5 and 0x9 have one instruction each, with low nibble 0; O4 lists their other words as unmapped (R92, R93). -/
theorem decodeWord_of_low_nibble_ne_zero {w : Word} (hp : nibbleAt 12 w = 0x5 ∨ nibbleAt 12 w = 0x9)
    (hn : nibbleAt 0 w ≠ 0) : decodeWord w = .error (.unmapped w) := by
  obtain ⟨_, hlisted⟩ := unmappedWordsAreThoseListed w
  rcases hp with h5 | h9
  · exact hlisted.2 (.inr (.inl ⟨h5, hn⟩))
  · exact hlisted.2 (.inr (.inr (.inr (.inl ⟨h9, hn⟩))))

/-- Settles O15: both are the skip of R138, on `V[X]` and `V[Y]`. -/
theorem registerSkips : Obligations.RegisterSkips := by
  refine ⟨hasEncoding_rowOf (.seVV 0 0), hasEncoding_rowOf (.sneVV 0 0),
    fun _ hp hn => decodeWord_of_low_nibble_ne_zero hp hn, fun x y s => ⟨?_, ?_⟩⟩
  · exact ⟨_, rfl, s.skipIf_beq_pc_toNat (s.getV x) (s.getV y), s.skipIf_onlyChanges _⟩
  · exact ⟨_, rfl, s.skipIf_bne_pc_toNat (s.getV x) (s.getV y), s.skipIf_onlyChanges _⟩

end Sys2Proof.Machine
end

section
/-! PROOFS. Arithmetic and logic (42_alu.md): O16 and O17, the operations that write no flag (R150 to R155); O18 to O20, those
that write VF last (R156 to R160, R165); O21 and O22, the random byte (R163, R164). -/

namespace Sys2Proof.Machine

/-! ### One register and no flag (R150 to R155) -/

/-- The advance writes no register (R112). -/
theorem RegsBut.of_advance (xs : List Reg) (s : State) : RegsBut xs s s.advance := fun _ _ => rfl

/-- An instruction that writes the one byte `b`, which is as `P` says: `V[x]` is as `P` says, and nothing else changes but
`PC`. -/
theorem exec_of_setV {i : Instr} {s : State} {x : Reg} {b : Byte} {P : Byte → Prop}
    (hexec : exec i s = .next (s.advance.setV x b)) (hb : P b) :
    ∃ t, exec i s = .next t ∧ t.pc = s.pc + 2#16 ∧ P (t.getV x) ∧ RegsBut [x] s t ∧ OnlyChanges [.v] s t := by
  refine ⟨_, hexec, rfl, ?_, ?_, ?_⟩
  · rwa [State.getV_setV_self]
  · exact (RegsBut.of_advance [x] s).setV List.mem_cons_self b
  · exact (OnlyChanges.of_advance [.v] s).setV List.mem_cons_self x b

/-- Settles O16: each writes the one byte, NN or the sum, which wraps as byte addition does. -/
theorem immediateLoadAndAdd : Obligations.ImmediateLoadAndAdd := by
  refine ⟨hasEncoding_rowOf (.ldVB 0 0), hasEncoding_rowOf (.addVB 0 0), fun x nn s => ⟨?_, ?_⟩⟩
  · exact exec_of_setV (P := fun b => b = nn) rfl rfl
  · exact exec_of_setV (P := fun b => b.toNat = _) rfl (BitVec.toNat_add (s.getV x) nn)

/-- Settles O17: each writes the one byte, and the bits of that byte are those of the operation. -/
theorem assignAndBitwise : Obligations.AssignAndBitwise := by
  refine ⟨hasEncoding_rowOf (.ldVV 0 0), hasEncoding_rowOf (.orVV 0 0), hasEncoding_rowOf (.andVV 0 0),
    hasEncoding_rowOf (.xorVV 0 0), fun x y s => ⟨?_, ?_, ?_, ?_⟩⟩
  · exact exec_of_setV (P := fun b => b = s.getV y) rfl rfl
  · exact exec_of_setV (P := fun b => ∀ k, b.getLsbD k = ((s.getV x).getLsbD k || (s.getV y).getLsbD k)) rfl
      fun _ => BitVec.getLsbD_or
  · exact exec_of_setV (P := fun b => ∀ k, b.getLsbD k = ((s.getV x).getLsbD k && (s.getV y).getLsbD k)) rfl
      fun _ => BitVec.getLsbD_and
  · exact exec_of_setV (P := fun b => ∀ k, b.getLsbD k = ((s.getV x).getLsbD k).xor ((s.getV y).getLsbD k)) rfl
      fun _ => BitVec.getLsbD_xor

/-! ### One register and then VF (R156 to R160, R165) -/

theorem State.getV_regVF_setWithFlag (s : State) (x : Reg) (b : Byte) (f : Bool) :
    (s.setWithFlag x b f).getV regVF = flagByte f := by
  rw [State.getV_setWithFlag, if_pos rfl]

theorem State.getV_dest_setWithFlag (s : State) {x : Reg} (hx : x ≠ regVF) (b : Byte) (f : Bool) :
    (s.setWithFlag x b f).getV x = b := by
  rw [State.getV_setWithFlag, if_neg hx, if_pos rfl]

/-- An instruction that writes the result `b`, which is `n` as a number, and then the flag `f`, which is `m`: the flag stands
in VF whatever `x` is, the result in `V[x]` unless the flag has overwritten it. -/
theorem exec_of_setWithFlag {i : Instr} {s : State} {x : Reg} {b : Byte} {f : Bool} {n m : Nat}
    (hexec : exec i s = .next (s.advance.setWithFlag x b f)) (hb : b.toNat = n) (hf : (flagByte f).toNat = m) :
    ∃ t, exec i s = .next t ∧ t.pc = s.pc + 2#16 ∧ (x ≠ regVF → (t.getV x).toNat = n) ∧ (t.getV regVF).toNat = m ∧
      RegsBut [x, regVF] s t ∧ OnlyChanges [.v] s t := by
  refine ⟨_, hexec, rfl, fun hx => ?_, ?_, ?_, ?_⟩
  · rw [State.getV_dest_setWithFlag _ hx, hb]
  · rw [State.getV_regVF_setWithFlag, hf]
  · exact ((RegsBut.of_advance [x, regVF] s).setV (by simp) b).setV (by simp) (flagByte f)
  · exact (OnlyChanges.of_advance [.v] s).setWithFlag List.mem_cons_self x b f

/-! ### The flags and the results as numbers -/

theorem flagByte_toNat (f : Bool) : (flagByte f).toNat = f.toNat := by cases f <;> rfl

theorem flagByte_decide_toNat (p : Prop) [Decidable p] : (flagByte (decide p)).toNat = if p then 1 else 0 := by
  rw [flagByte_toNat]
  exact apply_ite Bool.toNat p true false

/-- The flag that is bit `k` of a byte. -/
theorem flagByte_getLsbD_toNat (a : Byte) (k : Nat) : (flagByte (a.getLsbD k)).toNat = a.toNat / 2 ^ k % 2 := by
  rw [flagByte_toNat, ← BitVec.testBit_toNat, Nat.toNat_testBit]

theorem carryOut_flag_toNat (a b : Byte) :
    (flagByte (carryOut a b)).toNat = if a.toNat + b.toNat ≥ 256 then 1 else 0 :=
  flagByte_decide_toNat _

theorem noBorrow_flag_toNat (minuend subtrahend : Byte) :
    (flagByte (noBorrow minuend subtrahend)).toNat = if minuend.toNat ≥ subtrahend.toNat then 1 else 0 :=
  flagByte_decide_toNat _

theorem shiftedOutRight_flag_toNat (a : Byte) : (flagByte (shiftedOutRight a)).toNat = a.toNat % 2 := by
  have hflag : (flagByte (shiftedOutRight a)).toNat = a.toNat / 1 % 2 := flagByte_getLsbD_toNat a 0
  rw [hflag, Nat.div_one]

/-- Bit 7 is the top bit of a byte: nothing of the byte is above it. -/
theorem shiftedOutLeft_flag_toNat (a : Byte) : (flagByte (shiftedOutLeft a)).toNat = a.toNat / 128 := by
  have hflag : (flagByte (shiftedOutLeft a)).toNat = a.toNat / 128 % 2 := flagByte_getLsbD_toNat a 7
  have hlt := a.isLt
  omega

/-- A difference of bytes, as R157 and R159 count it: 256 added where it would go below 0. -/
theorem byte_sub_toNat (a b : Byte) : (a - b).toNat = (a.toNat + 256 - b.toNat) % 256 := by
  have hlt := b.isLt
  rw [BitVec.toNat_sub]
  omega

/-- Settles O18: the sum wraps, and the carry is the flag. -/
theorem addSetsCarry : Obligations.AddSetsCarry :=
  ⟨hasEncoding_rowOf (.addVV 0 0), fun x y s =>
    exec_of_setWithFlag rfl (BitVec.toNat_add _ _) (carryOut_flag_toNat (s.getV x) (s.getV y))⟩

/-- Settles O19: the two take the same difference and the same flag, with the operands exchanged. -/
theorem subtractsSetNoBorrow : Obligations.SubtractsSetNoBorrow := by
  refine ⟨hasEncoding_rowOf (.subVV 0 0), hasEncoding_rowOf (.subnVV 0 0), fun x y s => ⟨?_, ?_⟩⟩
  · exact exec_of_setWithFlag rfl (byte_sub_toNat _ _) (noBorrow_flag_toNat (s.getV x) (s.getV y))
  · exact exec_of_setWithFlag rfl (byte_sub_toNat _ _) (noBorrow_flag_toNat (s.getV y) (s.getV x))

/-- Settles O20: a shift by one halves or doubles, and the flag is the bit of the old value that it moves out. -/
theorem shiftsSetBitShiftedOut : Obligations.ShiftsSetBitShiftedOut := by
  refine ⟨hasEncoding_rowOf (.shrV 0 0), hasEncoding_rowOf (.shlV 0 0), fun x y s => ⟨?_, ?_⟩⟩
  · have hhalf : (s.getV x >>> 1).toNat = (s.getV x).toNat / 2 := by
      rw [BitVec.toNat_ushiftRight, Nat.shiftRight_one]
    exact exec_of_setWithFlag rfl hhalf (shiftedOutRight_flag_toNat (s.getV x))
  · have hdouble : (s.getV x <<< 1).toNat = (s.getV x).toNat * 2 % 256 := by
      rw [BitVec.toNat_shiftLeft, Nat.shiftLeft_eq]
    exact exec_of_setWithFlag rfl hdouble (shiftedOutLeft_flag_toNat (s.getV x))

/-! ### The random byte (R163, R164) -/

/-- Settles O21: the byte written is the byte drawn, masked, and the draw is counted. -/
theorem randomByteIsMasked : Obligations.RandomByteIsMasked := by
  refine ⟨hasEncoding_rowOf (.rnd 0 0), fun x nn s => ⟨_, rfl, rfl, fun k => ?_, rfl, ?_, ?_⟩⟩
  · rw [State.getV_setV_self, BitVec.getLsbD_and]
    cases nn.getLsbD k with
    | false => exact Bool.and_false _
    | true => exact Bool.and_true _
  · exact instructionsWriteOnlyListedRegisters (.rnd x nn) s _ rfl
  · exact exec_onlyChanges (i := .rnd x nn) rfl

/-- CXNN alone has the count of draws among its parts. -/
theorem draws_mem_partsOf_iff (i : Instr) : Part.draws ∈ partsOf i ↔ ∃ x nn, i = .rnd x nn := by
  cases i <;> simp [partsOf]

/-- Settles O22: CXNN counts one draw, and every other instruction leaves the count by its frame (O54). -/
theorem onlyRndDraws : Obligations.OnlyRndDraws := by
  intro i s t h
  by_cases hi : ∃ x nn, i = .rnd x nn
  · rw [if_pos hi]
    obtain ⟨x, nn, rfl⟩ := hi
    obtain rfl := next_inj.1 h
    rfl
  · rw [if_neg hi]
    exact (exec_onlyChanges h).2 .draws fun hd => hi ((draws_mem_partsOf_iff i).1 hd)

end Sys2Proof.Machine
end

section
/-! PROOFS. The address register and memory transfer (43_index_memory.md): O23 and O24, the writes of `I` (R180 to R182);
O25, nothing else writes it (R187); O26, the decimal digits (R183); O27 to O29, the stores and loads of registers (R184,
R185). -/

namespace Sys2Proof.Machine

/-! ### The address register (R180 to R182, R187) -/

theorem lowNibble_val (b : Byte) : (lowNibble b).val = b.toNat % 16 :=
  BitVec.extractLsb'_toNat 0 4 b

/-- The last glyph starts at 0x09B, so the address of a glyph does not wrap. -/
theorem glyphAddress_toNat (digit : Fin 16) : (glyphAddress digit).toNat = 0x050 + 5 * digit.val := by
  have hlt := digit.isLt
  simp only [glyphAddress, Config.fontBase, Config.glyphBytes, BitVec.toNat_ofNat]
  omega

/-- An instruction that writes only `I` after the advance, with a word that is `n` as a number. -/
theorem exec_of_setI {i : Instr} {s : State} {a : Word} {n : Nat} (hexec : exec i s = .next (s.advance.setI a))
    (ha : a.toNat = n) :
    ∃ t, exec i s = .next t ∧ t.pc = s.pc + 2#16 ∧ t.i.toNat = n ∧ OnlyChanges [.i] s t :=
  ⟨_, hexec, rfl, ha, (OnlyChanges.of_advance [.i] s).setI List.mem_cons_self a⟩

/-- Settles O23: each writes `I` alone, with NNN or with the address of the glyph. -/
theorem indexLoads : Obligations.IndexLoads := by
  refine ⟨hasEncoding_rowOf (.ldI 0), hasEncoding_rowOf (.ldFV 0), fun nnn x s => ⟨?_, ?_⟩⟩
  · exact exec_of_setI rfl (addressOperand_toNat nnn)
  · have hglyph := glyphAddress_toNat (lowNibble (s.getV x))
    rw [lowNibble_val] at hglyph
    exact exec_of_setI rfl hglyph

/-- `I` and a byte added: the byte fits in the 16 bits of `I`, the sum wraps. -/
theorem index_add_byte_toNat (i : Word) (b : Byte) : (i + b.setWidth 16).toNat = (i.toNat + b.toNat) % 65536 := by
  rw [BitVec.toNat_add, BitVec.toNat_setWidth_of_le (by decide)]

/-- Settles O24: the sum wraps, and VF, written last, is the flag of the new `I`. -/
theorem addIndexSetsOverflow : Obligations.AddIndexSetsOverflow := by
  refine ⟨hasEncoding_rowOf (.addIV 0), fun x s => ⟨_, rfl, rfl, index_add_byte_toNat s.i (s.getV x), ?_, ?_, ?_⟩⟩
  · rw [State.setVF, State.getV_setV_self]
    exact flagByte_decide_toNat _
  · exact instructionsWriteOnlyListedRegisters (.addIV x) s _ rfl
  · exact exec_onlyChanges (i := .addIV x) rfl

/-- ANNN, FX1E and FX29 alone have `I` among their parts. -/
theorem i_mem_partsOf_iff (i : Instr) :
    Part.i ∈ partsOf i ↔ (∃ nnn, i = .ldI nnn) ∨ (∃ x, i = .addIV x) ∨ (∃ x, i = .ldFV x) := by
  cases i <;> simp [partsOf]

/-- Settles O25: where `I` differs it is among the instruction's parts, by the frame (O54). -/
theorem onlyThreeInstructionsWriteIndex : Obligations.OnlyThreeInstructionsWriteIndex := by
  intro i s t h hne
  by_contra hother
  exact hne ((exec_onlyChanges h).2 .i fun hi => hother ((i_mem_partsOf_iff i).1 hi))

/-! ### The decimal digits (R183) -/

theorem hundredsDigit_toNat (b : Byte) : (hundredsDigit b).toNat = b.toNat / 100 := by
  have hlt := b.isLt
  rw [hundredsDigit, BitVec.toNat_ofNat]
  omega

theorem tensDigit_toNat (b : Byte) : (tensDigit b).toNat = b.toNat / 10 % 10 := by
  rw [tensDigit, BitVec.toNat_ofNat]
  omega

theorem onesDigit_toNat (b : Byte) : (onesDigit b).toNat = b.toNat % 10 := by
  rw [onesDigit, BitVec.toNat_ofNat]
  omega

/-- A byte of memory after FX33: the digit of its address where that write is not dropped, else the byte before it. -/
theorem execLdBV_memRead {x : Reg} {s t : State} (h : execLdBV x s = .next t) {k : Nat} (hk : k ≤ 0xFFF) :
    t.memRead k =
      if k = s.i.toNat + 2 ∧ writable (s.i.toNat + 2) = true then onesDigit (s.getV x)
      else if k = s.i.toNat + 1 ∧ writable (s.i.toNat + 1) = true then tensDigit (s.getV x)
      else if k = s.i.toNat ∧ writable s.i.toNat = true then hundredsDigit (s.getV x)
      else s.memRead k := by
  obtain rfl := next_inj.1 h
  rw [State.memRead_memWrite _ _ _ _ hk, State.memRead_memWrite _ _ _ _ hk, State.memRead_memWrite _ _ _ _ hk]
  rfl

/-- FX33 keeps every byte that a program cannot write or that is outside its three addresses. -/
theorem execLdBV_memRead_kept {x : Reg} {s t : State} (h : execLdBV x s = .next t) {a : Nat} (ha : a ≤ 0xFFF)
    (hkept : ¬ Stores a ∨ a < s.i.toNat ∨ s.i.toNat + 2 < a) : t.memRead a = s.memRead a := by
  have hnot : ∀ c, s.i.toNat ≤ c → c ≤ s.i.toNat + 2 → ¬ (a = c ∧ writable c = true) := by
    rintro c hlo hhi ⟨rfl, hw⟩
    rcases hkept with hdropped | hbelow | habove
    · exact hdropped ((writable_iff a).1 hw)
    · omega
    · omega
  rw [execLdBV_memRead h ha, if_neg (hnot _ (by omega) le_rfl), if_neg (hnot _ (by omega) (by omega)),
    if_neg (hnot _ le_rfl (by omega))]

/-- Settles O26: the three addresses are different, so each digit is read back where its write is not dropped. -/
theorem decimalDigitsAreStored : Obligations.DecimalDigitsAreStored := by
  refine ⟨hasEncoding_rowOf (.ldBV 0), fun x s => ⟨_, rfl, execLdBV_pc rfl, fun hstores => ?_, fun hstores => ?_,
    fun hstores => ?_, fun a => execLdBV_memRead_kept rfl, exec_onlyChanges (i := .ldBV x) rfl⟩⟩
  · rw [execLdBV_memRead rfl hstores.1, if_neg (by omega), if_neg (by omega),
      if_pos ⟨rfl, (writable_iff _).2 hstores⟩, hundredsDigit_toNat]
  · rw [execLdBV_memRead rfl hstores.1, if_neg (by omega), if_pos ⟨rfl, (writable_iff _).2 hstores⟩, tensDigit_toNat]
  · rw [execLdBV_memRead rfl hstores.1, if_pos ⟨rfl, (writable_iff _).2 hstores⟩, onesDigit_toNat]

/-! ### The stores and loads of registers (R184, R185) -/

/-- FX55 puts `V[r]` at `I + r` where that write is not dropped. -/
theorem execLdMIV_memRead_stored {x : Reg} {s t : State} (h : execLdMIV x s = .next t) {r : Reg} (hr : r ≤ x)
    (hstores : Stores (s.i.toNat + r.val)) : t.memRead (s.i.toNat + r.val) = s.getV r := by
  obtain rfl := next_inj.1 h
  obtain ⟨hstored, _⟩ := s.advance.cellAt_foldl_storeReg (regsUpTo x) (regsUpTo_nodup x) (s.i.toNat + r.val)
  rw [State.memRead_le _ hstores.1, hstored r ((mem_regsUpTo x r).2 hr) rfl ((writable_iff _).2 hstores),
    State.getV_advance]

/-- FX55 keeps every byte that a program cannot write or that is not from `I` to `I + X`. -/
theorem execLdMIV_memRead_kept {x : Reg} {s t : State} (h : execLdMIV x s = .next t) {a : Nat} (ha : a ≤ 0xFFF)
    (hkept : ¬ Stores a ∨ a < s.i.toNat ∨ s.i.toNat + x.val < a) : t.memRead a = s.memRead a := by
  obtain rfl := next_inj.1 h
  obtain ⟨_, hother⟩ := s.advance.cellAt_foldl_storeReg (regsUpTo x) (regsUpTo_nodup x) a
  rw [State.memRead_le _ ha, s.memRead_le ha]
  refine hother (hkept.imp (fun hdropped => ?_) fun houtside r hr => ?_)
  · exact Bool.eq_false_iff.2 fun hw => hdropped ((writable_iff a).1 hw)
  · have hle : r.val ≤ x.val := (mem_regsUpTo x r).1 hr
    rw [State.advance_i]
    omega

/-- Settles O27: the registers up to X are distinct, so no store overwrites another. -/
theorem registersAreStored : Obligations.RegistersAreStored :=
  ⟨hasEncoding_rowOf (.ldMIV 0), fun x _ => ⟨_, rfl, execLdMIV_pc rfl, fun _ => execLdMIV_memRead_stored rfl,
    fun _ => execLdMIV_memRead_kept rfl, exec_onlyChanges (i := .ldMIV x) rfl⟩⟩

/-- A register after FX65: the byte of its address if it takes part and the address exists, else the value before. -/
theorem execLdVMI_getV {x : Reg} {s t : State} (h : execLdVMI x s = .next t) (r : Reg) :
    t.getV r = if r ≤ x ∧ s.i.toNat + r.val ≤ 0xFFF then s.memRead (s.i.toNat + r.val) else s.getV r := by
  obtain rfl := next_inj.1 h
  simp only [State.getV_foldl_loadReg, mem_regsUpTo, State.advance_i, State.advance_mem, State.getV_advance]
  exact ite_congr rfl (fun hload => (s.memRead_le hload.2).symm) fun _ => rfl

/-- Settles O28: each register is loaded from its own address or not at all. -/
theorem registersAreLoaded : Obligations.RegistersAreLoaded :=
  ⟨hasEncoding_rowOf (.ldVMI 0), fun x _ => ⟨_, rfl, execLdVMI_pc rfl, execLdVMI_getV rfl,
    exec_onlyChanges (i := .ldVMI x) rfl⟩⟩

/-- Settles O29: FX55 leaves `I` (O27), so FX65 reads each register's address where FX55 has stored it (O28). -/
theorem loadUndoesStore : Obligations.LoadUndoesStore := by
  intro x s hstores
  obtain ⟨_, hstore⟩ := registersAreStored
  obtain ⟨_, hload⟩ := registersAreLoaded
  obtain ⟨t, ht, _, hstored, _, hframe⟩ := hstore x s
  obtain ⟨u, hu, _, hloaded, _⟩ := hload x { t with v := Vector.replicate 16 0#8 }
  have hi : t.i = s.i := hframe.2 .i (by decide)
  refine ⟨t, u, ht, hu, fun r => ?_⟩
  rw [hloaded r]
  by_cases hr : r ≤ x
  · have hread : t.memRead (s.i.toNat + r.val) = s.getV r := hstored r hr (hstores r hr)
    rw [if_pos hr, hi, if_pos ⟨hr, (hstores r hr).1⟩]
    exact hread
  · rw [if_neg hr, if_neg fun h => hr h.1]
    exact Vector.getElem_replicate ..

end Sys2Proof.Machine
end

section
/-! PROOFS. The display (44_display.md): O32, the clear (R201); O33, the draw (R202 to R204, R206); O34, the same sprite
drawn twice (R205). -/

namespace Sys2Proof.Machine

/-! ### The clear (R201) -/

/-- Settles O32: CLS writes the clear display after the advance. -/
theorem clearTurnsEveryPixelOff : Obligations.ClearTurnsEveryPixelOff :=
  ⟨hasEncoding_rowOf .cls, fun _ => ⟨_, rfl, rfl, pixelAt_clearDisplay, exec_onlyChanges (i := .cls) rfl⟩⟩

/-! ### The draw (R202 to R204, R206) -/

/-- The places the sprite of DXYN lights are those of the sprite that `State.drawn` draws (R202 to R204). -/
theorem State.spriteLights_iff (s : State) (x y : Reg) (n : BitVec 4) (px py : Nat) :
    s.SpriteLights x y n px py ↔
      SpritePlaces (fun r => s.memRead (s.dataAddress r)) ((s.getV x).toNat % 64) ((s.getV y).toNat % 32) n.toNat
        px py := by
  constructor
  · rintro ⟨hright, hbottom, hx, hx8, hy, hyn, hbit⟩
    exact ⟨hy, hyn, hbottom, hx, hx8, hright, hbit⟩
  · rintro ⟨hy, hyn, hbottom, hx, hx8, hright, hbit⟩
    exact ⟨hright, hbottom, hx, hx8, hy, hyn, hbit⟩

/-- DXYN inverts exactly the places its sprite lights, and VF is the collision flag of this draw alone. -/
theorem execDrw_inverts {x y : Reg} {n : BitVec 4} {s t : State} (h : execDrw x y n s = .next t) :
    ∃ hit, t.getV regVF = flagByte hit ∧ Inverts (s.SpriteLights x y n) (s.fb, false) (t.fb, hit) := by
  obtain rfl := next_inj.1 h
  refine ⟨(s.drawn x y n).2, State.getV_setV_self _ _ _, ?_⟩
  exact (drawSprite_inverts _ _ _ _ _).congr (s.spriteLights_iff x y n)

/-- Settles O33: the flag of the draw is VF, 1 or 0 (R206). -/
theorem drawInvertsLitPlaces : Obligations.DrawInvertsLitPlaces := by
  refine ⟨hasEncoding_rowOf (.drw 0 0 0), fun x y n s => ?_⟩
  obtain ⟨t, ht⟩ : ∃ t, execDrw x y n s = .next t := ⟨_, rfl⟩
  obtain ⟨hit, hvf, hlit, hother, hhit⟩ := execDrw_inverts ht
  refine ⟨t, ht, exec_pc_of_not_redirects (i := .drw x y n) ht rfl, hlit, hother, ?_,
    instructionsWriteOnlyListedRegisters (.drw x y n) s t ht, exec_onlyChanges (i := .drw x y n) ht⟩
  rw [hvf]
  cases hit with
  | true => exact .inl ⟨rfl, by simpa using hhit⟩
  | false => exact .inr ⟨rfl, by simpa using hhit⟩

/-! ### The same sprite drawn twice (R205) -/

/-- A draw that leaves VX and VY leaves the places that the sprite lights: `I` and memory are outside its frame. -/
theorem execDrw_spriteLights {x y : Reg} (hx : x ≠ regVF) (hy : y ≠ regVF) {n : BitVec 4} {s t : State}
    (h : execDrw x y n s = .next t) : t.SpriteLights x y n = s.SpriteLights x y n := by
  obtain ⟨_, hframe⟩ := exec_onlyChanges (i := .drw x y n) h
  have hregs := instructionsWriteOnlyListedRegisters (.drw x y n) s t h
  have hi : t.i = s.i := hframe .i (by simp [partsOf])
  have hmem : ∀ a, t.memRead a = s.memRead a := hframe .mem (by simp [partsOf])
  have hvx : t.getV x = s.getV x := hregs x (by simpa [regsWritten] using hx)
  have hvy : t.getV y = s.getV y := hregs y (by simpa [regsWritten] using hy)
  funext px py
  simp only [State.SpriteLights, hi, hmem, hvx, hvy]

section Twice

variable {L : Nat → Nat → Prop} {a b c : Display} {f g hit : Bool}

/-- Inverting the same places twice restores every pixel. -/
theorem Inverts.restores (h₁ : Inverts L (a, f) (b, g)) (h₂ : Inverts L (b, false) (c, hit)) (px py : Nat) :
    pixelAt c px py = pixelAt a px py := by
  obtain ⟨hlit₁, hother₁, _⟩ := h₁
  obtain ⟨hlit₂, hother₂, _⟩ := h₂
  by_cases hL : L px py
  · exact (hlit₂ px py hL).trans (by rw [hlit₁ px py hL, Bool.not_not])
  · exact (hother₂ px py hL).trans (hother₁ px py hL)

/-- The second draw collides where the first has turned a place on, that is where the place was off. -/
theorem Inverts.second_collides_iff (h₁ : Inverts L (a, f) (b, g)) (h₂ : Inverts L (b, false) (c, hit)) :
    hit = true ↔ ∃ px py, L px py ∧ pixelAt a px py = false := by
  obtain ⟨hlit₁, _, _⟩ := h₁
  obtain ⟨_, _, hhit⟩ := h₂
  have hflip : ∀ px py, L px py → (pixelAt b px py = true ↔ pixelAt a px py = false) := fun px py hL => by
    rw [hlit₁ px py hL, Bool.not_eq_true']
  calc hit = true ↔ ∃ px py, L px py ∧ pixelAt b px py = true := by simpa using hhit
    _ ↔ ∃ px py, L px py ∧ pixelAt a px py = false :=
      exists₂_congr fun px py => and_congr_right (hflip px py)

end Twice

/-- Settles O34: the second draw lights the same places, since the first has written VF alone of the registers. -/
theorem secondDrawRestoresDisplay : Obligations.SecondDrawRestoresDisplay := by
  intro x y n s hx hy
  obtain ⟨t, ht⟩ : ∃ t, execDrw x y n s = .next t := ⟨_, rfl⟩
  obtain ⟨u, hu⟩ : ∃ u, execDrw x y n t = .next u := ⟨_, rfl⟩
  obtain ⟨_, _, hfirst⟩ := execDrw_inverts ht
  obtain ⟨hit, hvf, hsecond⟩ := execDrw_inverts hu
  rw [execDrw_spriteLights hx hy ht] at hsecond
  refine ⟨t, u, ht, hu, hfirst.restores hsecond, ?_⟩
  rw [hvf, flagByte_eq_one]
  exact hfirst.second_collides_iff hsecond

end Sys2Proof.Machine
end

section
/-! PROOFS. The timers (45_timers.md): O35, the transfers between a timer and a register (R220 to R222); O36, the timer tick
(R223). -/

namespace Sys2Proof.Machine

/-! ### The transfers (R220 to R222) -/

/-- Settles O35: each is the advance and one write, of `V[x]`, of `DT` or of `ST`; the frame (O54) says the rest. -/
theorem timerTransfers : Obligations.TimerTransfers := by
  refine ⟨hasEncoding_rowOf (.ldVDT 0), hasEncoding_rowOf (.ldDTV 0), hasEncoding_rowOf (.ldSTV 0),
    fun x s => ⟨?_, ?_, ?_⟩⟩
  · exact exec_of_setV (P := fun b => b = s.dt) rfl rfl
  · exact ⟨_, rfl, rfl, rfl, exec_onlyChanges (i := .ldDTV x) rfl⟩
  · exact ⟨_, rfl, rfl, rfl, exec_onlyChanges (i := .ldSTV x) rfl⟩

/-! ### The timer tick (R223) -/

/-- The floor of R223 is that of subtraction on the naturals. -/
theorem countDown_toNat_eq_ite (t : Byte) : (countDown t).toNat = if t.toNat > 0 then t.toNat - 1 else 0 := by
  rw [countDown_toNat]
  split
  · rfl
  · omega

theorem countDown_iterate_toNat (n : Nat) (t : Byte) : (countDown^[n] t).toNat = t.toNat - n := by
  induction n with
  | zero => rfl
  | succ n ih => rw [Function.iterate_succ_apply', countDown_toNat, ih, Nat.sub_sub]

/-- `n` ticks count `DT` down `n` times, whatever else the state holds. -/
theorem State.timerTick_iterate_dt (n : Nat) (s : State) : (State.timerTick^[n] s).dt = countDown^[n] s.dt :=
  Function.Semiconj.iterate_right State.timerTick_dt n s

/-- `n` ticks count `ST` down `n` times, whatever else the state holds. -/
theorem State.timerTick_iterate_st (n : Nat) (s : State) : (State.timerTick^[n] s).st = countDown^[n] s.st :=
  Function.Semiconj.iterate_right State.timerTick_st n s

theorem State.timerTick_onlyChanges (s : State) : OnlyChanges [.dt, .st] s s.timerTick :=
  ((OnlyChanges.refl [.dt, .st] s).setDt (by simp) (countDown s.dt)).setSt (by simp) (countDown s.st)

/-- Settles O36: a tick counts each timer down once and writes nothing else, so `n` ticks count each down `n` times. -/
theorem timerTickCountsDown : Obligations.TimerTickCountsDown := by
  refine fun s => ⟨countDown_toNat_eq_ite s.dt, countDown_toNat_eq_ite s.st, s.timerTick_pc, s.timerTick_onlyChanges,
    fun n => ⟨?_, ?_⟩⟩
  · rw [State.timerTick_iterate_dt, countDown_iterate_toNat]
  · rw [State.timerTick_iterate_st, countDown_iterate_toNat]

end Sys2Proof.Machine
end

section
/-! PROOFS. The keys (46_input.md): O37, the skips on a key (R233, R234); O38 and O39, the two ends of a key wait (R235, R238);
O57, a step of a wait does not read memory (R239, R115); O41, the key latch and the capture (R232, R237); O40, the wait as a
whole (R242). -/

namespace Sys2Proof.Machine

/-! ### The skips on a key (R233, R234) -/

theorem lowNibble_eq {b : Byte} {k : Key} (h : k.val = b.toNat % 16) : lowNibble b = k :=
  Fin.ext ((lowNibble_val b).trans h.symm)

/-- A skip where a condition does not hold. -/
theorem State.skipIf_not_pc_toNat (s : State) (c : Bool) :
    (s.advance.skipIf (!c)).pc.toNat = (s.pc.toNat + if c then 2 else 4) % 65536 := by
  rw [s.skipIf_advance_pc_toNat]
  cases c <;> rfl

/-- Settles O37: both are the skip of R138, on the flag of the key in the low nibble of `V[X]`. -/
theorem keySkips : Obligations.KeySkips := by
  refine ⟨hasEncoding_rowOf (.skp 0), hasEncoding_rowOf (.sknp 0), fun x k s hk => ?_⟩
  obtain rfl := lowNibble_eq hk
  exact ⟨⟨_, rfl, s.skipIf_advance_pc_toNat _, s.skipIf_onlyChanges _⟩,
    ⟨_, rfl, s.skipIf_not_pc_toNat _, s.skipIf_onlyChanges _⟩⟩

/-! ### The two ends of a key wait (R235, R238) -/

/-- Settles O38: the jump back to `PC0` undoes the advance, and the rest is `Mode` and `Captured`. -/
theorem keyWaitBegins : Obligations.KeyWaitBegins :=
  ⟨hasEncoding_rowOf (.ldVK 0), fun x _ => ⟨_, rfl, rfl, rfl, rfl, exec_onlyChanges (i := .ldVK x) rfl⟩⟩

/-- In a wait, with a program loaded, an instruction step is the key-wait check (R115). -/
theorem State.instrStep_of_awaitingKey {s : State} (hl : s.loaded = true) {x : Reg} (hm : s.mode = .awaitingKey x) :
    s.instrStep = .next (s.keyWaitStep x) := by
  simp only [State.instrStep, hl, hm, if_true]

/-- The index of a key fits in a register. -/
theorem keyIndex_toNat (k : Key) : (BitVec.ofNat 8 k.val).toNat = k.val :=
  Nat.mod_eq_of_lt (k.isLt.trans (by decide))

/-- Settles O39: a step in the wait is the key-wait check, which is split on `Captured`. -/
theorem keyWaitCheck : Obligations.KeyWaitCheck := by
  intro x s htick hm
  have ⟨_, _, _, hloaded⟩ := htick
  rw [step_of_ticking htick, State.instrStep_of_awaitingKey hloaded hm]
  refine ⟨fun hc => by rw [State.keyWaitStep_none hc], fun k hc => ?_⟩
  rw [State.keyWaitStep_some hc]
  have hv : ((s.setV x (BitVec.ofNat 8 k.val)).getV x).toNat = k.val := by
    rw [State.getV_setV_self, keyIndex_toNat]
  have hregs : RegsBut [x] s (s.setV x (BitVec.ofNat 8 k.val)) := fun r hr =>
    s.getV_setV_ne _ fun hrx => hr (List.mem_singleton.2 hrx)
  have hframe : OnlyChanges [.v, .wait] s (s.setV x (BitVec.ofNat 8 k.val)) :=
    (OnlyChanges.refl _ s).setV (by simp) x _
  exact ⟨_, rfl, hv, rfl, rfl, rfl, hregs, (hframe.setWait (by simp) .running none).advance⟩

/-! ### A step of a wait and memory (R239, R115) -/

/-- The key-wait check does not read memory, and hands on what memory holds. -/
theorem State.keyWaitStep_setMem (s : State) (x : Reg) (m : Memory) :
    ({ s with mem := m } : State).keyWaitStep x = { s.keyWaitStep x with mem := m } := by
  rcases s.captured.eq_none_or_eq_some with hc | ⟨k, hc⟩
  · have hother : ({ s with mem := m } : State).captured = none := hc
    rw [State.keyWaitStep_none hc, State.keyWaitStep_none hother]
  · have hother : ({ s with mem := m } : State).captured = some k := hc
    rw [State.keyWaitStep_some hc, State.keyWaitStep_some hother]
    rfl

/-- The key-wait check writes no memory and reports nothing, whether or not a key is captured. -/
theorem State.keyWaitStep_mem_diags (s : State) (x : Reg) :
    (s.keyWaitStep x).mem = s.mem ∧ (s.keyWaitStep x).diags = s.diags := by
  cases hc : s.captured with
  | none => rw [State.keyWaitStep_none hc]; exact ⟨rfl, rfl⟩
  | some k => rw [State.keyWaitStep_some hc]; exact ⟨rfl, rfl⟩

theorem State.instrStep_of_not_loaded {s : State} (hl : ¬ s.loaded = true) : s.instrStep = .next s :=
  if_neg hl

/-- Settles O57: with no program loaded a step changes nothing, whatever memory holds; with one it is the key-wait check. -/
theorem awaitingStepFetchesNothing : Obligations.AwaitingStepFetchesNothing := by
  intro s t x m hm h
  by_cases hl : s.loaded = true
  · have hother := State.instrStep_of_awaitingKey (s := { s with mem := m }) hl hm
    rw [s.keyWaitStep_setMem x m] at hother
    obtain rfl := next_inj.1 ((State.instrStep_of_awaitingKey hl hm).symm.trans h)
    exact ⟨hother, s.keyWaitStep_mem_diags x⟩
  · obtain rfl := next_inj.1 ((State.instrStep_of_not_loaded hl).symm.trans h)
    exact ⟨State.instrStep_of_not_loaded (s := { s with mem := m }) hl, rfl, rfl⟩

/-! ### The key latch and the capture (R232, R237) -/

theorem Mode.ne_running_iff (m : Mode) : m ≠ .running ↔ ∃ x, m = .awaitingKey x := by
  cases m <;> simp

/-- A call of `setKey` that is captured: a press of a key that was up, in a wait that holds no key yet (R237). -/
def State.Captures (s : State) (k : Key) (down : Bool) : Prop :=
  down = true ∧ s.isDown k = false ∧ (∃ x, s.mode = .awaitingKey x) ∧ s.captured = none

theorem State.captures_iff (s : State) (k : Key) (down : Bool) :
    s.Captures k down ↔ down = true ∧ s.isDown k = false ∧ s.mode ≠ .running ∧ s.captured = none := by
  rw [State.Captures, Mode.ne_running_iff]

theorem State.setKey_isDown (s : State) (k : Key) (down : Bool) (j : Key) :
    (s.setKey k.val down).isDown j = if j = k then down else s.isDown j := by
  rw [s.setKey_of_lt k down, s.latchKey_eq k down]
  exact isDown_set s k down j

theorem State.setKey_captured_of_captures {s : State} {k : Key} {down : Bool} (h : s.Captures k down) :
    (s.setKey k.val down).captured = some k := by
  rw [s.setKey_of_lt k down, s.latchKey_eq k down]
  exact if_pos ((s.captures_iff k down).1 h)

theorem State.setKey_captured_of_not_captures {s : State} {k : Key} {down : Bool} (h : ¬ s.Captures k down) :
    (s.setKey k.val down).captured = s.captured := by
  rw [s.setKey_of_lt k down, s.latchKey_eq k down]
  exact if_neg fun hc => h ((s.captures_iff k down).2 hc)

/-- `setKey` changes the flags and `Captured` at most, for any index (R232). -/
theorem State.setKey_frame (s : State) (k : Nat) (down : Bool) :
    s.setKey k down = { s with keyDown := (s.setKey k down).keyDown, captured := (s.setKey k down).captured } := by
  obtain ⟨kd, cap, h, _⟩ := s.setKey_cases k down
  rw [h]

/-- Settles O41: an index above 15 is refused; for the others, the flag, the two cases of the capture, and the frame. -/
theorem setKeyLatchesAndCaptures : Obligations.SetKeyLatchesAndCaptures :=
  ⟨fun s _ down hk => s.setKey_of_ge hk down, fun s k down => ⟨s.setKey_isDown k down,
    State.setKey_captured_of_captures, State.setKey_captured_of_not_captures, s.setKey_frame k.val down⟩⟩

/-! ### A run of the machine -/

/-- A step that answers, and then the rest of the run. -/
theorem core_run_succ {s t : State} (h : step s = .next t) (n : Nat) : core.run (n + 1) s = core.run n t := by
  have hcore : core.step s = .next t := h
  simp only [Host.Core.run, hcore]

/-- A state that steps to itself is where every run from it ends. -/
theorem core_run_of_step_self {s : State} (h : step s = .next s) (n : Nat) : core.run n s = .next s := by
  induction n with
  | zero => rfl
  | succ n ih => rw [core_run_succ h, ih]

/-! ### The wait as a whole (R242) -/

theorem State.Ticking.of_sameHostSide {s t : State} (hs : s.Ticking) (h : SameHostSide s t) : t.Ticking := by
  obtain ⟨hterm, hcalls, hstarted, hloaded⟩ := hs
  obtain ⟨_, hl, ht0, _, _, _, _, hc, ht⟩ := h
  exact ⟨ht.trans hterm, hc.trans hcalls, ht0 ▸ hstarted, hl.trans hloaded⟩

theorem State.Ticking.setKey {s : State} (hs : s.Ticking) (k : Nat) (down : Bool) : (s.setKey k down).Ticking := by
  rw [s.setKey_frame k down]
  exact hs

theorem State.setKey_mode (s : State) (k : Nat) (down : Bool) : (s.setKey k down).mode = s.mode := by
  rw [s.setKey_frame k down]

theorem State.setKey_pc (s : State) (k : Nat) (down : Bool) : (s.setKey k down).pc = s.pc := by
  rw [s.setKey_frame k down]

/-- With no other call pending, the machine serves a call of `setKey` in one step. -/
theorem State.Ticking.step_setKey {s : State} (hs : s.Ticking) (k : Nat) (down : Bool) :
    step { s with calls := [.setKey k down] } = .next (s.setKey k down) := by
  obtain ⟨hterm, hcalls, _, _⟩ := hs
  have hserved : ({ s with calls := [] } : State) = s := by rw [← hcalls]
  calc step { s with calls := [.setKey k down] }
    _ = ({ s with calls := [] } : State).serve (.setKey k down) := step_of_call hterm rfl
    _ = .next (s.setKey k down) := by rw [hserved]; rfl

/-- Settles O40: the state that FX0A leaves ticks in a wait that holds no key, so the key-wait check (O39) keeps it; a press
there is captured (O41), and the check after it stores the key. -/
theorem keyWaitLiveness : Obligations.KeyWaitLiveness := by
  intro x s t hs hexec
  have hhost : SameHostSide s t := exec_sameHostSide hexec
  have htick : t.Ticking := hs.of_sameHostSide hhost
  obtain ⟨hkeys, _⟩ := hhost
  obtain ⟨_, hbegins⟩ := keyWaitBegins
  obtain ⟨t', ht', hpc, hmode, hcap, _⟩ := hbegins x s
  obtain rfl := next_inj.1 (ht'.symm.trans hexec)
  obtain ⟨hwaits, _⟩ := keyWaitCheck x t' htick hmode
  have hstays : ∀ n, core.run n t' = .next t' := core_run_of_step_self (hwaits hcap)
  refine ⟨hstays, fun n k hup => ?_⟩
  have hpress : t'.Captures k true := ⟨rfl, by rw [State.isDown, hkeys]; exact hup, ⟨x, hmode⟩, hcap⟩
  obtain ⟨_, hstores⟩ := keyWaitCheck x _ (htick.setKey k.val true) ((t'.setKey_mode k.val true).trans hmode)
  obtain ⟨v, hv, hreg, hrun, _, hvpc, _⟩ := hstores k (State.setKey_captured_of_captures hpress)
  refine ⟨t', v, hstays n, ?_, hreg, ?_, hrun⟩
  · exact (core_run_succ (htick.step_setKey k.val true) 1).trans (core_run_succ hv 0)
  · rw [hvpc, State.setKey_pc, hpc]

end Sys2Proof.Machine
end

section
/-! PROOFS. The scheduler, the ports and the diagnostics (60_exceptions.md): O42 and O59, the actions at a time (R265, R266,
R270); O60, the calls without a time (R271, R275); O43, the counts (R267); O58, the start (R264); O47, the termination (R269);
O44, the diagnostics of a step (R251 to R256); O48, the ports (R271). -/

namespace Sys2Proof.Machine

/-! ### Actions at a time, due and not due (R265, R270) -/

/-- An instruction step is due at `now` in a scheduler that started at `z`: a program is loaded and the time has come. -/
def State.StepIsDue (s : State) (z now : Rat) : Prop :=
  s.loaded = true ∧ (now - z) * s.instrHz.hz ≥ (s.instrDone : Rat) + 1

/-- A timer tick is due at `now` in a scheduler that started at `z`. -/
def State.TickIsDue (s : State) (z now : Rat) : Prop := (now - z) * 60 ≥ (s.timerDone : Rat) + 1

theorem State.stepIfDue_of_not_started {s : State} (h0 : s.t0 = none) (now : Rat) : s.stepIfDue now = .next s := by
  simp only [State.stepIfDue, h0]

theorem State.tickIfDue_of_not_started {s : State} (h0 : s.t0 = none) (now : Rat) : s.tickIfDue now = s := by
  simp only [State.tickIfDue, h0]

/-- One step of the core, counted. -/
theorem State.stepIfDue_of_due {s w : State} {z now : Rat} (h0 : s.t0 = some z) (hd : s.StepIsDue z now)
    (hw : s.instrStep = .next w) : s.stepIfDue now = .next { w with instrDone := s.instrDone + 1 } := by
  obtain ⟨_, _, _, hcount, _⟩ := State.instrStep_sameHostSide hw
  obtain ⟨hloaded, htime⟩ := hd
  simp only [State.stepIfDue, h0, hloaded, (isDue_iff ..).2 htime, hw, andThen, hcount, Bool.and_self, if_true]

theorem State.stepIfDue_of_not_due {s : State} {z now : Rat} (h0 : s.t0 = some z) (hd : ¬ s.StepIsDue z now) :
    s.stepIfDue now = .next s := by
  simp only [State.stepIfDue, h0, Bool.and_eq_true, isDue_iff]
  exact if_neg hd

/-- One tick, counted. -/
theorem State.tickIfDue_of_due {s : State} {z now : Rat} (h0 : s.t0 = some z) (hd : s.TickIsDue z now) :
    s.tickIfDue now = { s.timerTick with timerDone := s.timerDone + 1 } := by
  simp only [State.tickIfDue, h0]
  exact if_pos ((isDue_iff ..).2 hd)

theorem State.tickIfDue_of_not_due {s : State} {z now : Rat} (h0 : s.t0 = some z) (hd : ¬ s.TickIsDue z now) :
    s.tickIfDue now = s := by
  simp only [State.tickIfDue, h0]
  exact if_neg fun h => hd ((isDue_iff ..).1 h)

/-- A pass is a step if due and then a tick if due, after its key events (R265). -/
theorem State.pass_eq_tickIfDue {s w : State} {now : Rat} {keys : List KeyEvent}
    (hw : (s.applyKeys keys).stepIfDue now = .next w) : s.pass now keys = .next (w.tickIfDue now) :=
  andThen_next.2 ⟨w, hw, rfl⟩

/-- Key events change the flags and `Captured` at most. -/
theorem State.applyKeys_frame (s : State) (keys : List KeyEvent) :
    s.applyKeys keys =
      { s with keyDown := (s.applyKeys keys).keyDown, captured := (s.applyKeys keys).captured } := by
  obtain ⟨kd, cap, h, _⟩ := s.applyKeys_cases keys
  rw [h]

/-- Settles O59: the machine serves each call as the action at its time, which is split on whether it is due. -/
theorem callsAtTimeActIfDue : Obligations.CallsAtTimeActIfDue := by
  intro s now rest ht
  refine ⟨fun hc => ?step, fun hc => ?tickTimers, fun keys hc h0 => ?pass⟩
  case step =>
    rw [step_of_call ht hc]
    refine ⟨fun z h0 => ⟨fun hd => ?_, State.stepIfDue_of_not_due (s := { s with calls := rest }) h0⟩,
      fun h0 => State.stepIfDue_of_not_started (s := { s with calls := rest }) h0 now⟩
    obtain ⟨w, hw⟩ := ({ s with calls := rest } : State).instrStep_answers
    exact ⟨w, hw, State.stepIfDue_of_due (s := { s with calls := rest }) h0 hd hw⟩
  case tickTimers =>
    rw [step_of_call ht hc]
    exact ⟨fun z h0 => ⟨fun hd => next_inj.2 (State.tickIfDue_of_due (s := { s with calls := rest }) h0 hd),
        fun hd => next_inj.2 (State.tickIfDue_of_not_due (s := { s with calls := rest }) h0 hd)⟩,
      fun h0 => next_inj.2 (State.tickIfDue_of_not_started (s := { s with calls := rest }) h0 now)⟩
  case pass =>
    have hu0 : (({ s with calls := rest } : State).applyKeys keys).t0 = none := by rwa [State.applyKeys_frame]
    calc step s
      _ = ({ s with calls := rest } : State).pass now keys := step_of_call ht hc
      _ = .next ((({ s with calls := rest } : State).applyKeys keys).tickIfDue now) :=
        State.pass_eq_tickIfDue (State.stepIfDue_of_not_started hu0 now)
      _ = .next (({ s with calls := rest } : State).applyKeys keys) :=
        next_inj.2 (State.tickIfDue_of_not_started hu0 now)

/-- A step at a time leaves the start and the count of ticks (R265). -/
theorem State.stepIfDue_frame {s t : State} {now : Rat} (h : s.stepIfDue now = .next t) :
    t.t0 = s.t0 ∧ t.timerDone = s.timerDone := by
  rcases State.stepIfDue_cases h with rfl | ⟨_, u, _, _, _, hu, rfl⟩
  · exact ⟨rfl, rfl⟩
  · obtain ⟨_, _, ht0, _, htimer, _⟩ := State.instrStep_sameHostSide hu
    exact ⟨ht0, htimer⟩

/-- Settles O42: the key events leave the start and what is due, and the step leaves the start and the count of ticks, so each
action is split on whether it was due before the pass. -/
theorem passStepsThenTicks : Obligations.PassStepsThenTicks := by
  intro s now z keys rest ht hc h0
  obtain ⟨u, hu⟩ : ∃ u, u = ({ s with calls := rest } : State).applyKeys keys := ⟨_, rfl⟩
  obtain ⟨hu0, hudone, hutimer, hudue⟩ : u.t0 = some z ∧ u.instrDone = s.instrDone ∧ u.timerDone = s.timerDone ∧
      (u.StepIsDue z now ↔ s.StepIsDue z now) := by
    rw [hu, State.applyKeys_frame]
    exact ⟨h0, rfl, rfl, .rfl⟩
  obtain ⟨w, hw⟩ := u.stepIfDue_answers now
  obtain ⟨hw0, hwtimer⟩ := State.stepIfDue_frame hw
  have hwticks : w.timerDone = s.timerDone := hwtimer.trans hutimer
  refine ⟨u, w, w.tickIfDue now, hu, fun hd => ?due, fun hd => ?notDue, fun hd => ?tick, fun hd => ?noTick,
    ?served⟩
  case due =>
    obtain ⟨w', hw'⟩ := u.instrStep_answers
    rw [State.stepIfDue_of_due hu0 (hudue.2 hd) hw', hudone] at hw
    exact ⟨w', hw', (next_inj.1 hw).symm⟩
  case notDue => exact next_inj.1 (hw.symm.trans (State.stepIfDue_of_not_due hu0 fun h => hd (hudue.1 h)))
  case tick =>
    rw [← hwticks] at hd ⊢
    exact State.tickIfDue_of_due (hw0.trans hu0) hd
  case noTick =>
    rw [← hwticks] at hd
    exact State.tickIfDue_of_not_due (hw0.trans hu0) hd
  case served => exact (step_of_call ht hc).trans (State.pass_eq_tickIfDue (hu ▸ hw))

/-! ### The calls without a time (R271, R275) -/

theorem State.instrTick_of_started {s : State} (h0 : s.t0 ≠ none) : s.instrTick = s.instrStep :=
  if_pos (Option.isSome_iff_ne_none.2 h0)

theorem State.instrTick_of_not_started {s : State} (h0 : s.t0 = none) : s.instrTick = .next s :=
  if_neg fun h => Option.isSome_iff_ne_none.1 h h0

theorem State.timerStrobe_of_started {s : State} (h0 : s.t0 ≠ none) : s.timerStrobe = s.timerTick :=
  if_pos (Option.isSome_iff_ne_none.2 h0)

theorem State.timerStrobe_of_not_started {s : State} (h0 : s.t0 = none) : s.timerStrobe = s :=
  if_neg fun h => Option.isSome_iff_ne_none.1 h h0

/-- Settles O60: the machine serves each call as its operation, and the strobes are split on the start. -/
theorem untimedCallsAreServed : Obligations.UntimedCallsAreServed := by
  intro s rest ht
  refine ⟨fun hc => ⟨fun h0 => ?_, fun h0 => ?_⟩, fun hc => ⟨fun h0 => ?_, fun h0 => ?_⟩,
    fun k down hc => step_of_call ht hc, fun bytes hc => step_of_call ht hc⟩
  · have hstep : step s = ({ s with calls := rest } : State).instrStep :=
      (step_of_call ht hc).trans (State.instrTick_of_started h0)
    refine ⟨hstep, fun t h => ?_⟩
    obtain ⟨_, _, _, hinstr, htimer, _⟩ := State.instrStep_sameHostSide (hstep.symm.trans h)
    exact ⟨hinstr, htimer⟩
  · exact (step_of_call ht hc).trans (State.instrTick_of_not_started h0)
  · exact (step_of_call ht hc).trans (next_inj.2 (State.timerStrobe_of_started h0))
  · exact (step_of_call ht hc).trans (next_inj.2 (State.timerStrobe_of_not_started h0))

/-! ### The start and the end of the scheduler (R264, R269) -/

/-- Settles O58: the two cases of `State.startScheduler`. -/
theorem startBeginsSchedulerOnce : Obligations.StartBeginsSchedulerOnce := by
  intro s z rest ht hc
  rw [step_of_call ht hc]
  rcases ({ s with calls := rest } : State).startScheduler_cases z with ⟨hl, h0, hstart⟩ | ⟨hrefused, hstart⟩
  · refine ⟨fun _ => next_inj.2 hstart, fun h => ?_⟩
    rcases h with hl' | h0'
    · exact absurd (hl.symm.trans hl') (by decide)
    · exact absurd h0 h0'
  · exact ⟨fun h => absurd h hrefused, fun _ => next_inj.2 hstart⟩

theorem step_of_terminated {s : State} (ht : s.terminated = true) : step s = .next s := if_pos ht

/-- Settles O47: the call sets the mark, and a marked state steps to itself. -/
theorem terminationStopsTheLoop : Obligations.TerminationStopsTheLoop :=
  ⟨fun _ _ ht hc => step_of_call ht hc, fun _ ht => core_run_of_step_self (step_of_terminated ht)⟩

/-! ### The two counts (R267) -/

/-- The scheduler has counted at most one instruction step and at most one timer tick. -/
structure CountsAtMostOne (s t : State) : Prop where
  instr : t.instrDone = s.instrDone ∨ t.instrDone = s.instrDone + 1
  timer : t.timerDone = s.timerDone ∨ t.timerDone = s.timerDone + 1

theorem SameHostSide.countsAtMostOne {s t : State} (h : SameHostSide s t) : CountsAtMostOne s t := by
  obtain ⟨_, _, _, hinstr, htimer, _⟩ := h
  exact ⟨.inl hinstr, .inl htimer⟩

theorem State.stepIfDue_instrDone {s t : State} {now : Rat} (h : s.stepIfDue now = .next t) :
    t.instrDone = s.instrDone ∨ t.instrDone = s.instrDone + 1 := by
  rcases State.stepIfDue_cases h with rfl | ⟨_, u, _, _, _, hu, rfl⟩
  · exact .inl rfl
  · obtain ⟨_, _, _, hinstr, _⟩ := State.instrStep_sameHostSide hu
    exact .inr (congrArg (· + 1) hinstr)

/-- A tick at a time counts itself and no instruction step (R265). -/
theorem State.tickIfDue_counts (s : State) (now : Rat) :
    (s.tickIfDue now).instrDone = s.instrDone ∧
      ((s.tickIfDue now).timerDone = s.timerDone ∨ (s.tickIfDue now).timerDone = s.timerDone + 1) := by
  rcases s.tickIfDue_cases now with h | ⟨_, _, _, h⟩
  · rw [h]; exact ⟨rfl, .inl rfl⟩
  · rw [h]; exact ⟨rfl, .inr rfl⟩

/-- The three parts of a pass count nothing, at most one step, and at most one tick. -/
theorem State.pass_countsAtMostOne {s t : State} {now : Rat} {keys : List KeyEvent} (h : s.pass now keys = .next t) :
    CountsAtMostOne s t := by
  obtain ⟨w, hw, ht⟩ := andThen_next.1 h
  obtain rfl := next_inj.1 ht
  obtain ⟨_, hwtimer⟩ := State.stepIfDue_frame hw
  obtain ⟨htinstr, httimer⟩ := w.tickIfDue_counts now
  have hwinstr := State.stepIfDue_instrDone hw
  rw [s.applyKeys_frame keys] at hwtimer hwinstr
  exact ⟨htinstr ▸ hwinstr, hwtimer ▸ httimer⟩

theorem State.instrTick_countsAtMostOne {s t : State} (h : s.instrTick = .next t) : CountsAtMostOne s t := by
  by_cases h0 : s.t0 = none
  · obtain rfl := next_inj.1 ((State.instrTick_of_not_started h0).symm.trans h)
    exact (SameHostSide.refl s).countsAtMostOne
  · exact (State.instrStep_sameHostSide ((State.instrTick_of_started h0).symm.trans h)).countsAtMostOne

/-- After the start no call counts more than one of each; the start itself would set the counts to 0 (R264). -/
theorem State.serve_countsAtMostOne {s t : State} {c : HostCall} (h0 : s.t0 ≠ none) (h : s.serve c = .next t) :
    CountsAtMostOne s t := by
  cases c with
  | loadProgram bytes =>
    obtain rfl := next_inj.1 h
    rcases s.loadProgram_cases bytes with ⟨_, hl⟩ | ⟨_, _, hl⟩ | ⟨_, _, hl⟩ <;> rw [hl] <;> exact ⟨.inl rfl, .inl rfl⟩
  | start z =>
    obtain rfl := next_inj.1 h
    rcases s.startScheduler_cases z with ⟨_, hnone, _⟩ | ⟨_, hs⟩
    · exact absurd hnone h0
    · rw [hs]; exact ⟨.inl rfl, .inl rfl⟩
  | setKey k down =>
    obtain rfl := next_inj.1 h
    rw [s.setKey_frame k down]
    exact ⟨.inl rfl, .inl rfl⟩
  | instrTick => exact State.instrTick_countsAtMostOne h
  | timerTick =>
    obtain rfl := next_inj.1 h
    rw [State.timerStrobe_of_started h0]
    exact ⟨.inl rfl, .inl rfl⟩
  | step now => exact ⟨State.stepIfDue_instrDone h, .inl (State.stepIfDue_frame h).2⟩
  | tickTimers now =>
    obtain rfl := next_inj.1 h
    obtain ⟨hinstr, htimer⟩ := s.tickIfDue_counts now
    exact ⟨.inl hinstr, htimer⟩
  | pass now keys => exact State.pass_countsAtMostOne h
  | terminate =>
    obtain rfl := next_inj.1 h
    exact ⟨.inl rfl, .inl rfl⟩

theorem step_countsAtMostOne {s t : State} (h0 : s.t0 ≠ none) (h : step s = .next t) : CountsAtMostOne s t := by
  rcases step_cases s with ⟨_, hs⟩ | ⟨_, c, rest, _, hs⟩ | ⟨_, _, hs⟩
  · obtain rfl := next_inj.1 (hs.symm.trans h)
    exact (SameHostSide.refl s).countsAtMostOne
  · obtain ⟨hinstr, htimer⟩ := State.serve_countsAtMostOne (s := { s with calls := rest }) h0 (hs.symm.trans h)
    exact ⟨hinstr, htimer⟩
  · exact State.instrTick_countsAtMostOne (hs.symm.trans h)

/-- Settles O43: after the start a step counts at most one of each; before it there is nothing to show. -/
theorem atMostOneStepAndTick : Obligations.AtMostOneStepAndTick := by
  intro s t h
  by_cases h0 : s.t0 = none
  · exact ⟨.inr (.inr h0), .inr (.inr h0)⟩
  · obtain ⟨hinstr, htimer⟩ := step_countsAtMostOne h0 h
    exact ⟨hinstr.imp_right .inl, htimer.imp_right .inl⟩

/-! ### The diagnostics of a step (R251 to R253, R256) -/

/-- RET alone has the diagnostics among its parts. -/
theorem diags_mem_partsOf_iff (i : Instr) : Part.diags ∈ partsOf i ↔ i = .ret := by
  cases i <;> simp [partsOf]

/-- RET reports an empty stack, and nothing else (R130, R253). -/
theorem exec_ret_diags {s t : State} (h : exec .ret s = .next t) :
    t.diags = s.diags ∨ (t.diags = s.diags ++ [⟨.stackUnderflow, s.pc, 0x00EE#16⟩] ∧ s.stack = []) := by
  rcases s.stack.eq_nil_or_concat with he | ⟨rest, a, hs⟩
  · obtain rfl := next_inj.1 ((exec_ret_of_empty he).symm.trans h)
    exact .inr ⟨rfl, he⟩
  · obtain rfl := next_inj.1 ((exec_ret_of_stack (by simpa using hs)).symm.trans h)
    exact .inl rfl

/-- Settles O44: with no program loaded and in a wait nothing is reported; of the instructions RET alone reports (O54), and its
word is 00EE (O2); the no-op of an unmapped word reports the word. -/
theorem atMostOneDiagnosticPerStep : Obligations.AtMostOneDiagnosticPerStep := by
  intro s t h
  rcases s.instrStep_cases with ⟨_, hs⟩ | ⟨_, x, _, hs⟩ | ⟨_, _, i, hdec, hs⟩ | ⟨_, _, hdec, hs⟩
  · exact .inl (congrArg State.diags (next_inj.1 (hs.symm.trans h))).symm
  · obtain rfl := next_inj.1 (hs.symm.trans h)
    exact .inl (s.keyWaitStep_mem_diags x).2
  · have hexec := hs.symm.trans h
    by_cases hi : i = .ret
    · subst hi
      have hword : s.fetchWord = 0x00EE#16 := ((decodeWord_ok_iff_encode _ _).1 hdec).symm
      rw [hword]
      exact (exec_ret_diags hexec).imp_right fun ⟨hd, hstack⟩ => .inr ⟨hd, rfl, hstack⟩
    · exact .inl ((exec_onlyChanges hexec).2 .diags fun hd => hi ((diags_mem_partsOf_iff i).1 hd))
  · obtain rfl := next_inj.1 (hs.symm.trans h)
    exact .inr (.inl ⟨rfl, hdec⟩)

/-! ### The ports (R271, R225, R241) -/

/-- The port `fb` is the display's rows, one after the other. -/
theorem State.fbBits_eq_flatten (s : State) : s.fbBits = s.fb.flatten.toList := by
  simp only [State.fbBits, Vector.flatten, Vector.toList, List.flatMap_def, Array.toList_flatten, Array.toList_map,
    List.map_map]
  rfl

theorem State.fbBits_length (s : State) : s.fbBits.length = 2048 := by
  rw [s.fbBits_eq_flatten, Vector.length_toList]

/-- Bit `64 * y + x` is in row `y`, at column `x`. -/
theorem State.fbBits_getD (s : State) {x y : Nat} (hx : x < 64) (hy : y < 32) :
    s.fbBits.getD (64 * y + x) false = pixelAt s.fb x y := by
  have hdiv : (64 * y + x) / 64 = y := by omega
  have hmod : (64 * y + x) % 64 = x := by omega
  have hlt : 64 * y + x < 32 * 64 := by omega
  rw [s.fbBits_eq_flatten, List.getD_eq_getElem _ _ (by rwa [Vector.length_toList]), Vector.getElem_toList,
    Vector.getElem_flatten]
  simp only [hdiv, hmod, pixelAt, hx, hy, and_self, dif_pos]

theorem State.soundOn_iff (s : State) : s.soundOn = true ↔ s.st ≠ 0#8 := by
  simp [State.soundOn, Nat.pos_iff_ne_zero, ← BitVec.toNat_inj]

theorem State.isAwaitingKey_iff (s : State) : s.isAwaitingKey = true ↔ ∃ x, s.mode = .awaitingKey x := by
  unfold State.isAwaitingKey
  cases s.mode <;> simp

/-- Settles O48: each port by its own lemma. -/
theorem portsShowTheState : Obligations.PortsShowTheState :=
  fun s => ⟨s.fbBits_length, fun _ _ hx hy => s.fbBits_getD hx hy, s.soundOn_iff, s.isAwaitingKey_iff⟩

end Sys2Proof.Machine
end

section
/-! PROOFS. Loading a program and the first steps (70_reset_and_hazards.md): O45, the load (R304 to R306); O46, from reset
to the program's first word (R303, R304); O10, no step before a load and a start (R308, R264). -/

namespace Sys2Proof.Machine

/-! ### The load (R304 to R306) -/

theorem State.loadProgram_of_fits {s : State} {bytes : List Byte} (h0 : s.t0 = none) (hlen : bytes.length ≤ 0xE00) :
    s.loadProgram bytes =
      { s with mem := copyBytes s.mem 0x200 bytes, loaded := true, loadResult := some .ok } := by
  rcases s.loadProgram_cases bytes with ⟨hstarted, _⟩ | ⟨_, hlong, _⟩ | ⟨_, _, h⟩
  · exact absurd h0 hstarted
  · exact absurd hlen (Nat.not_le.2 hlong)
  · exact h

theorem State.loadProgram_of_too_long {s : State} {bytes : List Byte} (h0 : s.t0 = none) (hlen : bytes.length > 0xE00) :
    s.loadProgram bytes = { s with loadResult := some .tooLarge } := by
  rcases s.loadProgram_cases bytes with ⟨hstarted, _⟩ | ⟨_, _, h⟩ | ⟨_, hfits, _⟩
  · exact absurd h0 hstarted
  · exact h
  · exact absurd hfits (Nat.not_le.2 hlen)

theorem State.loadProgram_of_started {s : State} (h0 : s.t0 ≠ none) (bytes : List Byte) : s.loadProgram bytes = s :=
  if_pos (Option.isSome_iff_ne_none.2 h0)

/-- What a read finds after a load: the program's bytes from 0x200 up, every other byte as before. -/
theorem State.loadProgram_memRead {s : State} {bytes : List Byte} (h0 : s.t0 = none) (hlen : bytes.length ≤ 0xE00)
    {a : Nat} (ha : a ≤ 0xFFF) :
    (s.loadProgram bytes).memRead a =
      if 0x200 ≤ a ∧ a < 0x200 + bytes.length then bytes.getD (a - 0x200) 0#8 else s.memRead a := by
  rw [State.loadProgram_of_fits h0 hlen, State.memRead_le _ ha, State.memRead_le _ ha, cellAt_copyBytes]

/-- Settles O45: the three cases of a load. -/
theorem loadProgramCopiesOrRefuses : Obligations.LoadProgramCopiesOrRefuses := by
  refine fun s bytes => ⟨fun h0 hlen => ?_, State.loadProgram_of_too_long, fun h0 => s.loadProgram_of_started h0 bytes⟩
  refine ⟨fun a ha => State.loadProgram_memRead h0 hlen ha, ?_⟩
  rw [State.loadProgram_of_fits h0 hlen]
  exact ⟨rfl, rfl, rfl⟩

/-! ### From reset to the program's first word (R303, R304, R264) -/

theorem State.startScheduler_of_loaded {s : State} (hl : s.loaded = true) (h0 : s.t0 = none) (z : Rat) :
    s.startScheduler z = { s with t0 := some z, instrDone := 0, timerDone := 0 } := by
  rcases s.startScheduler_cases z with ⟨_, _, h⟩ | ⟨hrefused, _⟩
  · exact h
  · exact absurd ⟨hl, h0⟩ hrefused

/-- The machine after reset, the load of a program and the start at `z`. -/
def State.booted (bytes : List Byte) (z : Rat) : State :=
  { State.reset with mem := copyBytes [] 0x200 bytes, loaded := true, loadResult := some .ok, t0 := some z }

/-- The first step after reset serves the load. -/
theorem step_boot_load {bytes : List Byte} (hlen : bytes.length ≤ 0xE00) (z : Rat) :
    step { State.reset with calls := [.loadProgram bytes, .start z] } =
      .next { State.booted bytes z with t0 := none, calls := [.start z] } := by
  have hload := State.loadProgram_of_fits (s := { State.reset with calls := [.start z] }) rfl hlen
  rw [step_of_call rfl rfl]
  exact next_inj.2 hload

/-- The second step serves the start. -/
theorem step_boot_start (bytes : List Byte) (z : Rat) :
    step { State.booted bytes z with t0 := none, calls := [.start z] } = .next (State.booted bytes z) := by
  have hstart := State.startScheduler_of_loaded (s := { State.booted bytes z with t0 := none }) rfl rfl z
  rw [step_of_call rfl rfl]
  exact next_inj.2 hstart

theorem State.booted_ticking (bytes : List Byte) (z : Rat) : (State.booted bytes z).Ticking := ⟨rfl, rfl, nofun, rfl⟩

/-- The invariant holds at reset (O50), whatever calls are pending, and the two steps keep it (O51). -/
theorem State.booted_inv {bytes : List Byte} (hlen : bytes.length ≤ 0xE00) (z : Rat) : (State.booted bytes z).Inv := by
  have hreset : State.Inv { State.reset with calls := [.loadProgram bytes, .start z] } := invariantAtReset
  exact stepKeepsInvariant _ _ (stepKeepsInvariant _ _ hreset (step_boot_load hlen z)) (step_boot_start bytes z)

/-- `PC` is where the program begins (R307), so the word at `PC` is the program's first two bytes. -/
theorem State.booted_fetchWord (hi lo : Byte) (more : List Byte) (z : Rat) :
    (State.booted (hi :: lo :: more) z).fetchWord = wordOfBytes hi lo := by
  have hpc : (State.booted (hi :: lo :: more) z).pc.toNat = 0x200 := rfl
  have hmem : (State.booted (hi :: lo :: more) z).mem = copyBytes [] 0x200 (hi :: lo :: more) := rfl
  have hhi : cellAt (copyBytes [] 0x200 (hi :: lo :: more)) 0x200 = hi := by simp [cellAt_copyBytes]
  have hlo : cellAt (copyBytes [] 0x200 (hi :: lo :: more)) 0x201 = lo := by
    rw [cellAt_copyBytes, if_pos ⟨by decide, by simp only [List.length_cons]; omega⟩]
    rfl
  rw [State.fetchWord, State.fetchAt, hpc, State.memRead_le _ (by decide), State.memRead_le _ (by decide), hmem, hhi, hlo]

/-- Settles O46: the two steps lead to the booted state, which ticks in `Running`, so its step is the instruction of its first
word (O6). -/
theorem bootRunsFirstWord : Obligations.BootRunsFirstWord := by
  intro hi lo more z i hmore hdec
  have hlen : (hi :: lo :: more).length ≤ 0xE00 := Nat.add_le_add_right hmore 2
  have hrun : core.run 2 { State.reset with calls := [.loadProgram (hi :: lo :: more), .start z] } =
      .next (State.booted (hi :: lo :: more) z) :=
    (core_run_succ (step_boot_load hlen z) 1).trans (core_run_succ (step_boot_start _ z) 0)
  have htick := State.booted_ticking (hi :: lo :: more) z
  have hfirst : decodeWord (State.booted (hi :: lo :: more) z).fetchWord = .ok i := by rwa [State.booted_fetchWord]
  exact ⟨_, hrun, rfl, rfl, rfl, rfl, rfl, htick, State.booted_inv hlen z,
    stepRunsDecodedInstruction _ i htick rfl hfirst⟩

/-! ### No step before a load and a start (R308, R110, R264) -/

theorem State.stepIfDue_of_not_loaded {s : State} (hl : s.loaded = false) (now : Rat) : s.stepIfDue now = .next s := by
  cases h0 : s.t0 with
  | none => exact State.stepIfDue_of_not_started h0 now
  | some z => exact State.stepIfDue_of_not_due h0 fun ⟨hloaded, _⟩ => Bool.false_ne_true (hl.symm.trans hloaded)

theorem State.instrTick_of_not_loaded {s : State} (hl : s.loaded = false) : s.instrTick = .next s := by
  by_cases h0 : s.t0 = none
  · exact State.instrTick_of_not_started h0
  · rw [State.instrTick_of_started h0, State.instrStep_of_not_loaded (ne_true_of_eq_false hl)]

/-- With no call pending, what an instruction tick leaves as it is, a step of the machine leaves as it is. -/
theorem step_of_no_call {s : State} (hc : s.calls = []) (htick : s.instrTick = .next s) : step s = .next s := by
  rcases step_cases s with ⟨_, hs⟩ | ⟨_, c, rest, hcalls, _⟩ | ⟨_, _, hs⟩
  · exact hs
  · exact absurd (hc.symm.trans hcalls) nofun
  · exact hs.trans htick

/-- Settles O10: with no program loaded nothing is a step of the core, and before the start nothing is due. -/
theorem noStepBeforeLoad : Obligations.NoStepBeforeLoad :=
  ⟨fun _ hl => ⟨State.instrStep_of_not_loaded (ne_true_of_eq_false hl), State.stepIfDue_of_not_loaded hl,
      fun hc => step_of_no_call hc (State.instrTick_of_not_loaded hl)⟩,
    fun _ h0 => ⟨State.stepIfDue_of_not_started h0, step_of_not_started h0⟩⟩

end Sys2Proof.Machine
end
